-- ==== Sys2Proof/Word.lean ====
section
/-! DEFINITION. The byte, and the closed sets of names the spec's notation uses: the two units, the nine
operations, the two frame formats (spec/00_scope.md R7, R9; spec/30_encoding.md R60 to R64). -/

namespace Sys2Proof

/-- A byte: 8 bits, an unsigned number 0 to 255, bit 7 most significant (R7 `DATA_W`, R9). Every register,
payload byte and digest is one (R11). -/
abbrev Byte := BitVec 8

/-- Half a byte, a number 0 to 15 (R9). -/
abbrev Nibble := BitVec 4

/-- The unit a command names (R20, R60): there are exactly two (R7 `NUM_UNITS`). -/
inductive AccUnit where
  | bcc
  | lrc
deriving DecidableEq, Repr

/-- The nine operations of R64, in the document's order. -/
inductive Op where
  | write
  | blockSize
  | digestSize
  | sum8
  | sum
  | reset
  | marshal
  | unmarshal
  | hexSum
deriving DecidableEq, Repr

/-- The two frame formats of R62: N takes no operand, P takes a payload. -/
inductive Format where
  | n
  | p
deriving DecidableEq, Repr

end Sys2Proof
end

