-- ==== Sys2Proof/Config.lean ====
section
/-! DEFINITION. What an implementation fixes: the constants of spec/00_scope.md R7, the open parameters of R8 with
their defaults, and the free byte of spec/93_implementation_defined.md U1. -/

namespace Sys2Proof

/-- `UNMARSHAL_FAIL` (R8): what a failed `UNMARSHAL` leaves in the register of its unit. -/
inductive UnmarshalFail where
  /-- the old value is kept: this hardware (92_eei_decisions.md D8) -/
  | preserve
  /-- an arbitrary byte: the reading for a model of the reference software -/
  | any
deriving DecidableEq, Repr

/-- The open parameters of R8 that are values. `none` is `unbounded`. `SIGNALLING` is opaque and no rule reads it
(R8, D3), so it has no field. DESIGN CHOICE (log 4): they stand in a field of State that no event changes, so that
a statement about every state is a statement about every choice of them. -/
structure Params where
  /-- `MAX_LEN`: the greatest payload length a host may present in one command -/
  maxLen : Option Nat
  /-- `CNT_W`: width in bits of the `num` field on a real interface -/
  cntW : Option Nat
  /-- `UNMARSHAL_FAIL` -/
  unmarshalFail : UnmarshalFail
deriving DecidableEq, Repr

namespace Config

/-- `BLOCK_SIZE` (R7, R26): hardwired. -/
def blockSize : Nat := 1

/-- `DIGEST_SIZE` (R7, R26): hardwired. -/
def digestSize : Nat := 1

/-- `MODULUS` of the LRC sum (R7). -/
def modulus : Nat := 256

/-- The defaults of R8, which are this hardware's: both bounds unbounded, the register kept on a failed
`UNMARSHAL`. -/
def defaultParams : Params := { maxLen := none, cntW := none, unmarshalFail := .preserve }

/-- The free byte of U1 ("drawn afresh at each failure and under no law"), by the number of the draw. It has no
body: nothing can be proved of its value. Read only under `UNMARSHAL_FAIL = any`. DESIGN CHOICE (log 5). -/
opaque freeByte : Nat → Byte

end Config

/-- `n` is within `MAX_LEN` (R66). -/
def withinMaxLen (maxLen : Option Nat) (n : Nat) : Bool :=
  match maxLen with
  | none => true
  | some m => decide (n ≤ m)

/-- The obligation R8 puts on an implementation: `MAX_LEN < 2^CNT_W`. An unbounded payload needs an unbounded
count (DEDUCED, log 7). -/
def Params.legal (p : Params) : Bool :=
  match p.cntW, p.maxLen with
  | none, _ => true
  | some w, some m => decide (m < 2 ^ w)
  | some _, none => false

end Sys2Proof
end

