-- ==== Sys2Proof/Syntax.lean ====
section
/-! DEFINITION. The 17 commands of spec/30_encoding.md R64 as decoded commands `(u, op, payload)` (R60), one
constructor per row of spec/opcode_table.json. A command of format N has no payload to carry (R62), and there is
no `BCC.HEX_SUM` (R64, R67). -/

namespace Sys2Proof

/-- A command. `s` is the payload (R63). -/
inductive Instr where
  | bccWrite (s : List Byte)
  | bccBlockSize
  | bccDigestSize
  | bccSum8
  | bccSum (s : List Byte)
  | bccReset
  | bccMarshal
  | bccUnmarshal (s : List Byte)
  | lrcWrite (s : List Byte)
  | lrcBlockSize
  | lrcDigestSize
  | lrcSum8
  | lrcSum (s : List Byte)
  | lrcReset
  | lrcMarshal
  | lrcUnmarshal (s : List Byte)
  | lrcHexSum (s : List Byte)
deriving DecidableEq, Repr

/-- The payload of a command; empty for format N (R60, R62). -/
def Instr.payload : Instr → List Byte
  | .bccWrite s => s
  | .bccBlockSize => []
  | .bccDigestSize => []
  | .bccSum8 => []
  | .bccSum s => s
  | .bccReset => []
  | .bccMarshal => []
  | .bccUnmarshal s => s
  | .lrcWrite s => s
  | .lrcBlockSize => []
  | .lrcDigestSize => []
  | .lrcSum8 => []
  | .lrcSum s => s
  | .lrcReset => []
  | .lrcMarshal => []
  | .lrcUnmarshal s => s
  | .lrcHexSum s => s

end Sys2Proof
end

