-- ==== Sys2Proof/WellFormed.lean ====
section
/-! DEFINITION. Which commands a host may present: those whose payload is within `MAX_LEN` (spec/30_encoding.md
R66). Every other condition of R62 and R67 (no payload in format N, no `BCC.HEX_SUM`) is already so by the shape of
Instr. -/

namespace Sys2Proof

/-- The command is within `MAX_LEN` (R62, R66). -/
def Instr.wellFormed (maxLen : Option Nat) (i : Instr) : Bool :=
  withinMaxLen maxLen i.payload.length

end Sys2Proof
end

