-- ==== Sys2Proof/Decode.lean ====
section
/-! DEFINITION. The command encoding: header fields (spec/30_encoding.md R61, R63), the opcode map (R64), the total
decoder of frames (R65, R67), and after it the encoder (R60). -/

namespace Sys2Proof

/-! ## Header fields (R61) -/

/-- Header bits 7:5, `RSV`. -/
def rsvField (h : Byte) : BitVec 3 := h.extractLsb' 5 3

/-- Header bit 4, `U`: 0 is BCC, 1 is LRC. -/
def unitField (h : Byte) : AccUnit := if h.getLsbD 4 then .lrc else .bcc

/-- Header bits 3:0, `OP`. -/
def opField (h : Byte) : BitVec 4 := h.extractLsb' 0 4

/-- The number of a unit in the `U` bit (R61). -/
def AccUnit.code : AccUnit → Nat
  | .bcc => 0
  | .lrc => 1

/-- The `OP` number of an operation (R64). -/
def Op.code : Op → Nat
  | .write => 0
  | .blockSize => 1
  | .digestSize => 2
  | .sum8 => 3
  | .sum => 4
  | .reset => 5
  | .marshal => 6
  | .unmarshal => 7
  | .hexSum => 8

/-- The operation an `OP` field selects; 9 to 15 are reserved (R61, R64). -/
def opOfField (c : BitVec 4) : Option Op :=
  match c.toNat with
  | 0 => some .write
  | 1 => some .blockSize
  | 2 => some .digestSize
  | 3 => some .sum8
  | 4 => some .sum
  | 5 => some .reset
  | 6 => some .marshal
  | 7 => some .unmarshal
  | 8 => some .hexSum
  | _ => none

/-- The frame format of an operation (R62). -/
def Op.format : Op → Format
  | .write => .p
  | .blockSize => .n
  | .digestSize => .n
  | .sum8 => .n
  | .sum => .p
  | .reset => .n
  | .marshal => .n
  | .unmarshal => .p
  | .hexSum => .p

/-! ## The decoder (R65) -/

/-- Why a frame is illegal: the rows of R67's table. The name is the model's, for a reader; the core records
nothing of it (R161). -/
inductive IllegalReason where
  | emptyFrame
  | reservedBits
  | reservedOp
  | hexSumOnBcc
  | payloadOnFormatN
deriving DecidableEq, Repr

/-- The verdict of R65: `Illegal`, `Refused` (the payload is over `MAX_LEN`, R66) or `Command`. -/
inductive Verdict where
  | illegal (r : IllegalReason)
  | refused
  | command (i : Instr)
deriving DecidableEq, Repr

/-- The command of a unit and an operation (the rows of R64); BCC has no `HEX_SUM`. -/
def commandOf : AccUnit → Op → List Byte → Option Instr
  | .bcc, .write, s => some (.bccWrite s)
  | .bcc, .blockSize, _ => some .bccBlockSize
  | .bcc, .digestSize, _ => some .bccDigestSize
  | .bcc, .sum8, _ => some .bccSum8
  | .bcc, .sum, s => some (.bccSum s)
  | .bcc, .reset, _ => some .bccReset
  | .bcc, .marshal, _ => some .bccMarshal
  | .bcc, .unmarshal, s => some (.bccUnmarshal s)
  | .bcc, .hexSum, _ => none
  | .lrc, .write, s => some (.lrcWrite s)
  | .lrc, .blockSize, _ => some .lrcBlockSize
  | .lrc, .digestSize, _ => some .lrcDigestSize
  | .lrc, .sum8, _ => some .lrcSum8
  | .lrc, .sum, s => some (.lrcSum s)
  | .lrc, .reset, _ => some .lrcReset
  | .lrc, .marshal, _ => some .lrcMarshal
  | .lrc, .unmarshal, s => some (.lrcUnmarshal s)
  | .lrc, .hexSum, s => some (.lrcHexSum s)

/-- R65, the tests in the order written there. It reads the frame and `MAX_LEN` and nothing else. -/
def decode (maxLen : Option Nat) (frame : List Byte) : Verdict :=
  match frame with
  | [] => .illegal .emptyFrame
  | h :: payload =>
    if rsvField h ≠ 0 then .illegal .reservedBits
    else
      match opOfField (opField h) with
      | none => .illegal .reservedOp
      | some op =>
        match commandOf (unitField h) op payload with
        | none => .illegal .hexSumOnBcc
        | some i =>
          if op.format = .n ∧ payload ≠ [] then .illegal .payloadOnFormatN
          else if withinMaxLen maxLen payload.length then .command i
          else .refused

/-- The bytes of an opcode-table word: bits 7:0 are the first byte, the header; later bytes are payload. A frame
is exactly as long as the transport delimits it (R60), so `nbits` is all of it. -/
def frameOfWord : Nat → Nat → List Byte
  | 0, _ => []
  | k + 1, w => BitVec.ofNat 8 w :: frameOfWord k (w / 256)

/-- The instruction the decoder reads from an opcode-table word of `nbits` bits, under the default `MAX_LEN`
(R8). -/
def decodeTableWord (nbits w : Nat) : Option Instr :=
  match decode Config.defaultParams.maxLen (frameOfWord (nbits / 8) w) with
  | .illegal _ => none
  | .refused => none
  | .command i => some i

/-! ## The encoder (R60, R61, R64) -/

/-- The unit a command names. -/
def Instr.unit : Instr → AccUnit
  | .bccWrite _ => .bcc
  | .bccBlockSize => .bcc
  | .bccDigestSize => .bcc
  | .bccSum8 => .bcc
  | .bccSum _ => .bcc
  | .bccReset => .bcc
  | .bccMarshal => .bcc
  | .bccUnmarshal _ => .bcc
  | .lrcWrite _ => .lrc
  | .lrcBlockSize => .lrc
  | .lrcDigestSize => .lrc
  | .lrcSum8 => .lrc
  | .lrcSum _ => .lrc
  | .lrcReset => .lrc
  | .lrcMarshal => .lrc
  | .lrcUnmarshal _ => .lrc
  | .lrcHexSum _ => .lrc

/-- The operation of a command. -/
def Instr.op : Instr → Op
  | .bccWrite _ => .write
  | .bccBlockSize => .blockSize
  | .bccDigestSize => .digestSize
  | .bccSum8 => .sum8
  | .bccSum _ => .sum
  | .bccReset => .reset
  | .bccMarshal => .marshal
  | .bccUnmarshal _ => .unmarshal
  | .lrcWrite _ => .write
  | .lrcBlockSize => .blockSize
  | .lrcDigestSize => .digestSize
  | .lrcSum8 => .sum8
  | .lrcSum _ => .sum
  | .lrcReset => .reset
  | .lrcMarshal => .marshal
  | .lrcUnmarshal _ => .unmarshal
  | .lrcHexSum _ => .hexSum

/-- The header of a unit and an operation: `RSV * 32 + U * 16 + OP` with `RSV = 0` (R61). -/
def header (u : AccUnit) (op : Op) : Byte := BitVec.ofNat 8 (u.code * 16 + op.code)

/-- The frame of a command: `[header] ++ payload` (R60). -/
def encode (i : Instr) : List Byte := header i.unit i.op :: i.payload

end Sys2Proof
end

