-- ==== Sys2Proof/Machine/State.lean ====
section
/-! DEFINITION. The state: the two registers of spec/10_state.md R20, and the model's own fields for what stands at
the core's two channels (spec/00_scope.md section 5, R205) and for the parameters of R8. R20, R23, R24, R26, R27:
no program counter, flag, control register or memory exists, so none stands here. -/

namespace Sys2Proof.Machine

/-- The status of a response (spec/30_encoding.md R71). Code 3 is reserved and never produced, so it has no name
here. -/
inductive Status where
  | ok
  | invalidLength
  | illegalCommand
deriving DecidableEq, Repr

/-- The response to a command (R70). -/
structure Response where
  status : Status
  num : Nat
  data : List Byte
deriving DecidableEq, Repr

/-- What the host can do to the core: present a frame (R60), or cause hardware reset, which is an event and no
command (spec/70_reset_and_hazards.md R190). -/
inductive Event where
  | frame (bytes : List Byte)
  | hwReset
deriving DecidableEq, Repr

/-- The state of the core, `accBcc` and `accLrc` (R20), and around it the model's own fields, which R25 says are no
state of the core. -/
structure State where
  /-- `acc[BCC]`: the XOR of the bytes written (R20) -/
  accBcc : Byte
  /-- `acc[LRC]`: the sum mod 256 of the bytes written, before the two's complement (R20) -/
  accLrc : Byte
  /-- MODEL'S OWN (log 1): the events the host has yet to present, in order (R48, R205) -/
  pending : List Event
  /-- MODEL'S OWN (log 2): the responses given so far, in order; nothing reads them (R205) -/
  responses : List Response
  /-- MODEL'S OWN place (log 4) for the parameters of R8; nothing changes them -/
  params : Params
  /-- MODEL'S OWN (log 5): how many free bytes have been drawn (93_implementation_defined.md U1) -/
  draws : Nat
deriving DecidableEq, Repr

/-- Why the core stops: never. "There is no hang and no stuck state" (00_scope.md section 5 item 5; R93, R165,
R205), both errors of the spec are responses, and no address can be wrong, since there is none. DEDUCED (log 8),
safe: no claim that a fault is impossible rests on more than those rules. -/
inductive Fault where
deriving DecidableEq, Repr

/-- Why the model gives a step no meaning. -/
inductive Refusal where
  /-- raised by exec for an instruction without a meaning; no arm of this model does. Safe. -/
  | notModelled (mnemonic : String)
  /-- raised by step for a frame whose payload is longer than `MAX_LEN`: "the model refuses: no step, no response,
  no claim" (R65, R66, U7). Safe. It cannot arise under the default `MAX_LEN = unbounded`. -/
  | payloadTooLong
deriving DecidableEq, Repr

/-- The state after hardware reset: both registers 0x00 (R28, R191). The model's own fields: nothing presented and
nothing answered yet (DESIGN CHOICE, log 1, log 2), the defaults of R8, no free byte drawn (DESIGN CHOICE, log 5). -/
def State.reset : State :=
  { accBcc := 0x00
    accLrc := 0x00
    pending := []
    responses := []
    params := Config.defaultParams
    draws := 0 }

end Sys2Proof.Machine
end

