-- ==== Sys2Proof/Machine/Flags.lean ====
section
/-! DEFINITION. The core has no flags and no condition codes (spec/10_state.md R24): there is no flag computation.
What the core reports of a command is the status of its response; its code numbers are here (spec/30_encoding.md
R71). -/

namespace Sys2Proof.Machine

/-- The 2-bit code of a status (R70, R71). -/
def Status.code : Status → BitVec 2
  | .ok => 0
  | .invalidLength => 1
  | .illegalCommand => 2

end Sys2Proof.Machine
end

