-- ==== Sys2Proof/Machine/Operands.lean ====
section
/-! DEFINITION. The pure functions of the two units and the operands the commands use: `comb_u`, `fold_u`,
`digest_u`, `hexdigit` and the nibbles of a byte (spec/41_bcc.md R110, R111; spec/42_lrc.md R130 to R132;
spec/40_contract.md R91; spec/00_scope.md R9). The payload operand is the constructor's argument as it stands
(spec/30_encoding.md R63). -/

namespace Sys2Proof.Machine

/-- The combining operation: XOR for BCC (R110), addition mod 256 of unsigned numbers for LRC (R130). -/
def comb : AccUnit → Byte → Byte → Byte
  | .bcc, v, b => v ^^^ b
  | .lrc, v, b => BitVec.ofNat 8 ((v.toNat + b.toNat) % Config.modulus)

/-- The digest: the register itself for BCC (R111), its two's complement for LRC (R131). -/
def digest : AccUnit → Byte → Byte
  | .bcc, v => v
  | .lrc, v => BitVec.ofNat 8 ((Config.modulus - v.toNat) % Config.modulus)

/-- `fold_u` (R91): the payload bytes combined into the value, first byte first. -/
def fold (u : AccUnit) : Byte → List Byte → Byte
  | v, [] => v
  | v, b :: rest => fold u (comb u v b) rest

/-- `b[7:4]` (R9). -/
def highNibble (b : Byte) : Nibble := b.extractLsb' 4 4

/-- `b[3:0]` (R9). -/
def lowNibble (b : Byte) : Nibble := b.extractLsb' 0 4

/-- The ASCII code of the uppercase hexadecimal digit of a nibble (R132). -/
def hexdigit (k : Nibble) : Byte :=
  if k.toNat ≤ 9 then BitVec.ofNat 8 (0x30 + k.toNat) else BitVec.ofNat 8 (0x37 + k.toNat)

/-- The two characters of a digest, high nibble first (R141, R43). -/
def hexDigits (d : Byte) : List Byte := [hexdigit (highNibble d), hexdigit (lowNibble d)]

end Sys2Proof.Machine
end

