-- ==== Sys2Proof/Machine/Ops.lean ====
section
/-! DEFINITION. The operations every meaning is made of: reading and writing a register, answering a command,
raising an error, hardware reset, and the operations of the shared contract over a unit `u` (spec/40_contract.md
R90 to R103; spec/60_exceptions.md R160 to R165; spec/70_reset_and_hazards.md R191). -/

namespace Sys2Proof.Machine

/-! ## Registers (R20, R22) -/

/-- `acc[u]`. -/
def State.acc (s : State) : AccUnit → Byte
  | .bcc => s.accBcc
  | .lrc => s.accLrc

/-- `acc[u] <- v`. The other unit's register is not touched (R22). -/
def State.setAcc (s : State) : AccUnit → Byte → State
  | .bcc, v => { s with accBcc := v }
  | .lrc, v => { s with accLrc := v }

/-! ## Responses and errors -/

/-- `reply(st, n, d)` (R12, R70): the command ends with exactly one response. -/
def State.reply (s : State) (st : Status) (n : Nat) (d : List Byte) : State :=
  { s with responses := s.responses ++ [{ status := st, num := n, data := d }] }

/-- `raise` (R12, R160, R161, R163): taking an exception is answering `(st, 0, [])` and nothing else. No state is
saved, no mode changes, no control is transferred, and there is nothing to return from (R165). -/
def State.raise (s : State) (st : Status) : State := s.reply st 0 []

/-- Hardware reset (R191): both registers become 0x00; it gives no response (R190). The model's own fields stand
(DEDUCED, log 11). -/
def State.hardwareReset (s : State) : State := { s with accBcc := 0x00, accLrc := 0x00 }

/-- What a failed `UNMARSHAL` leaves in the register of its unit (R160): the old value under `preserve`, a fresh
free byte under `any` (U1, log 5). -/
def State.afterFailedUnmarshal (s : State) (u : AccUnit) : State :=
  match s.params.unmarshalFail with
  | .preserve => s
  | .any => { s.setAcc u (Config.freeByte s.draws) with draws := s.draws + 1 }

/-! ## The operations of the contract, over a unit (R103) -/

/-- `u.WRITE bs` (R112, R133): fold the payload in, answer its length. -/
def opWrite (u : AccUnit) (bs : List Byte) (s : State) : State :=
  (s.setAcc u (fold u (s.acc u) bs)).reply .ok bs.length []

/-- `u.BLOCK_SIZE` (R113, R134). -/
def opBlockSize (s : State) : State := s.reply .ok Config.blockSize []

/-- `u.DIGEST_SIZE` (R114, R135). -/
def opDigestSize (s : State) : State := s.reply .ok Config.digestSize []

/-- `u.SUM8` (R115, R136). -/
def opSum8 (u : AccUnit) (s : State) : State := s.reply .ok 0 [digest u (s.acc u)]

/-- `u.SUM bs` (R116, R137): the payload is copied through, not folded. -/
def opSum (u : AccUnit) (bs : List Byte) (s : State) : State :=
  s.reply .ok 0 (bs ++ [digest u (s.acc u)])

/-- `u.RESET` (R117, R138). -/
def opReset (u : AccUnit) (s : State) : State := (s.setAcc u 0x00).reply .ok 0 []

/-- `u.MARSHAL` (R118, R139): the raw register. -/
def opMarshal (u : AccUnit) (s : State) : State := s.reply .ok 0 [s.acc u]

/-- `u.UNMARSHAL bs` (R119, R140): one byte is taken as the register; any other length raises `InvalidLength`
(R160) and no payload byte is looked at. -/
def opUnmarshal (u : AccUnit) (bs : List Byte) (s : State) : State :=
  match bs with
  | [b] => (s.setAcc u b).reply .ok 0 []
  | _ => (s.afterFailedUnmarshal u).raise .invalidLength

/-- `u.HEX_SUM bs` (R141; LRC alone has it): the payload, then the digest's two characters. -/
def opHexSum (u : AccUnit) (bs : List Byte) (s : State) : State :=
  s.reply .ok 0 (bs ++ hexDigits (digest u (s.acc u)))

end Sys2Proof.Machine
end

