-- ==== Sys2Proof/Machine/Bcc.lean ====
section
/-! DEFINITION. The meanings of the BCC unit's commands (spec/41_bcc.md), one per row of the opcode table, each over the
shared operations of Machine/Ops.lean. -/

namespace Sys2Proof.Machine

/-- `BCC.WRITE s` (R112). -/
def execBccWrite (bs : List Byte) (s : State) : Host.Outcome State Fault Refusal := .next (opWrite .bcc bs s)

/-- `BCC.BLOCK_SIZE` (R113). -/
def execBccBlockSize (s : State) : Host.Outcome State Fault Refusal := .next (opBlockSize s)

/-- `BCC.DIGEST_SIZE` (R114). -/
def execBccDigestSize (s : State) : Host.Outcome State Fault Refusal := .next (opDigestSize s)

/-- `BCC.SUM8` (R115). -/
def execBccSum8 (s : State) : Host.Outcome State Fault Refusal := .next (opSum8 .bcc s)

/-- `BCC.SUM s` (R116). -/
def execBccSum (bs : List Byte) (s : State) : Host.Outcome State Fault Refusal := .next (opSum .bcc bs s)

/-- `BCC.RESET` (R117). -/
def execBccReset (s : State) : Host.Outcome State Fault Refusal := .next (opReset .bcc s)

/-- `BCC.MARSHAL` (R118). -/
def execBccMarshal (s : State) : Host.Outcome State Fault Refusal := .next (opMarshal .bcc s)

/-- `BCC.UNMARSHAL s` (R119). -/
def execBccUnmarshal (bs : List Byte) (s : State) : Host.Outcome State Fault Refusal := .next (opUnmarshal .bcc bs s)

end Sys2Proof.Machine
end

