-- ==== Sys2Proof/Machine/Lrc.lean ====
section
/-! DEFINITION. The meanings of the LRC unit's commands (spec/42_lrc.md), one per row of the opcode table, each over the
shared operations of Machine/Ops.lean. -/

namespace Sys2Proof.Machine

/-- `LRC.WRITE s` (R133). -/
def execLrcWrite (bs : List Byte) (s : State) : Host.Outcome State Fault Refusal := .next (opWrite .lrc bs s)

/-- `LRC.BLOCK_SIZE` (R134). -/
def execLrcBlockSize (s : State) : Host.Outcome State Fault Refusal := .next (opBlockSize s)

/-- `LRC.DIGEST_SIZE` (R135). -/
def execLrcDigestSize (s : State) : Host.Outcome State Fault Refusal := .next (opDigestSize s)

/-- `LRC.SUM8` (R136). -/
def execLrcSum8 (s : State) : Host.Outcome State Fault Refusal := .next (opSum8 .lrc s)

/-- `LRC.SUM s` (R137). -/
def execLrcSum (bs : List Byte) (s : State) : Host.Outcome State Fault Refusal := .next (opSum .lrc bs s)

/-- `LRC.RESET` (R138). -/
def execLrcReset (s : State) : Host.Outcome State Fault Refusal := .next (opReset .lrc s)

/-- `LRC.MARSHAL` (R139). -/
def execLrcMarshal (s : State) : Host.Outcome State Fault Refusal := .next (opMarshal .lrc s)

/-- `LRC.UNMARSHAL s` (R140). -/
def execLrcUnmarshal (bs : List Byte) (s : State) : Host.Outcome State Fault Refusal := .next (opUnmarshal .lrc bs s)

/-- `LRC.HEX_SUM s` (R141). -/
def execLrcHexSum (bs : List Byte) (s : State) : Host.Outcome State Fault Refusal := .next (opHexSum .lrc bs s)

end Sys2Proof.Machine
end

