-- ==== Sys2Proof/Machine/Dispatch.lean ====
section
/-! DEFINITION. What a decoded command does (spec/40_contract.md R90, "perform the rule of (u, op) on payload s"): one
arm per constructor of Instr, each a direct call of its meaning. -/

namespace Sys2Proof.Machine

def exec (i : Instr) (s : State) : Host.Outcome State Fault Refusal :=
  match i with
  | .bccWrite bs => Sys2Proof.Machine.execBccWrite bs s
  | .bccBlockSize => Sys2Proof.Machine.execBccBlockSize s
  | .bccDigestSize => Sys2Proof.Machine.execBccDigestSize s
  | .bccSum8 => Sys2Proof.Machine.execBccSum8 s
  | .bccSum bs => Sys2Proof.Machine.execBccSum bs s
  | .bccReset => Sys2Proof.Machine.execBccReset s
  | .bccMarshal => Sys2Proof.Machine.execBccMarshal s
  | .bccUnmarshal bs => Sys2Proof.Machine.execBccUnmarshal bs s
  | .lrcWrite bs => Sys2Proof.Machine.execLrcWrite bs s
  | .lrcBlockSize => Sys2Proof.Machine.execLrcBlockSize s
  | .lrcDigestSize => Sys2Proof.Machine.execLrcDigestSize s
  | .lrcSum8 => Sys2Proof.Machine.execLrcSum8 s
  | .lrcSum bs => Sys2Proof.Machine.execLrcSum bs s
  | .lrcReset => Sys2Proof.Machine.execLrcReset s
  | .lrcMarshal => Sys2Proof.Machine.execLrcMarshal s
  | .lrcUnmarshal bs => Sys2Proof.Machine.execLrcUnmarshal bs s
  | .lrcHexSum bs => Sys2Proof.Machine.execLrcHexSum bs s

end Sys2Proof.Machine
end

