-- ==== Sys2Proof/Machine/Fetch.lean ====
section
/-! DEFINITION. What stands at the command channel: the next event the host presents, and its frame's verdict
(spec/40_contract.md R90, "Decoding comes first and reads no state"; spec/70_reset_and_hazards.md R190). -/

namespace Sys2Proof.Machine

/-- What the core meets at its inputs, with the state in which it meets it (the event taken off the list). -/
inductive Fetched where
  /-- the host presents nothing -/
  | idle
  /-- hardware reset (R190) -/
  | hwReset (s : State)
  /-- a frame that encodes no command (R67) -/
  | illegal (r : IllegalReason) (s : State)
  /-- a payload over `MAX_LEN` (R66) -/
  | refused
  /-- a command -/
  | command (i : Instr) (s : State)
deriving DecidableEq, Repr

/-- The state with exactly these events yet to be presented. -/
def State.presenting (s : State) (es : List Event) : State := { s with pending := es }

/-- Take the next event the host presents (R48: one at a time, in the order presented) and decode it. -/
def fetch (s : State) : Fetched :=
  match s.pending with
  | [] => .idle
  | .hwReset :: rest => .hwReset (s.presenting rest)
  | .frame bytes :: rest =>
    match decode s.params.maxLen bytes with
    | .illegal r => .illegal r (s.presenting rest)
    | .refused => .refused
    | .command i => .command i (s.presenting rest)

/-- Nothing presented, nothing done: the core neither steps on its own nor halts (R90, R205). DESIGN CHOICE
(log 3). -/
def State.idle (s : State) : State := s

/-- Put a frame where the host presents it next. -/
def State.presentNext (s : State) (bytes : List Byte) : State :=
  s.presenting (.frame bytes :: s.pending)

end Sys2Proof.Machine
end

