-- ==== Sys2Proof/Machine/Step.lean ====
section
/-! DEFINITION. One step of the core (spec/40_contract.md R90), which is one whole command (R92) or one hardware
reset (spec/70_reset_and_hazards.md R190). -/

namespace Sys2Proof.Machine

/-- R90: an illegal frame is answered `IllegalCommand` and changes no register (R161); a refused frame has no step
(R66); a command is performed; a hardware reset resets (R191). -/
def step (s : State) : Host.Outcome State Fault Refusal :=
  match fetch s with
  | .idle => .next s.idle
  | .hwReset s' => .next s'.hardwareReset
  | .illegal _ s' => .next (s'.raise .illegalCommand)
  | .refused => .refused .payloadTooLong
  | .command i s' => exec i s'

/-- The state with an opcode-table word's frame presented next, before whatever else the host has yet to present
(log 1). -/
def State.withFetchWord (s : State) (nbits w : Nat) : State := s.presentNext (frameOfWord (nbits / 8) w)

end Sys2Proof.Machine
end

