-- ==== Sys2Proof/Machine/Asm.lean ====
section
/-! DEFINITION. The assembler syntax of spec/30_encoding.md R73, as a printer and a parser of one line of text (a list
of characters). It has no bearing on a step (92_eei_decisions.md D18, "No semantic content"). Every line is a
command or `HWRESET`; there are no pseudo-instructions (R74). What R73 leaves open is chosen as log 9 says. -/

namespace Sys2Proof.Machine

/-- A line of a program (R74). -/
inductive AsmLine where
  | command (i : Instr)
  | hwReset
deriving DecidableEq, Repr

/-! ## Names -/

/-- `<UNIT>`. -/
def unitName : AccUnit → List Char
  | .bcc => ['B', 'C', 'C']
  | .lrc => ['L', 'R', 'C']

/-- `<OPERATION>` (R64, R73). -/
def opName : Op → List Char
  | .write => ['W', 'R', 'I', 'T', 'E']
  | .blockSize => ['B', 'L', 'O', 'C', 'K', '_', 'S', 'I', 'Z', 'E']
  | .digestSize => ['D', 'I', 'G', 'E', 'S', 'T', '_', 'S', 'I', 'Z', 'E']
  | .sum8 => ['S', 'U', 'M', '8']
  | .sum => ['S', 'U', 'M']
  | .reset => ['R', 'E', 'S', 'E', 'T']
  | .marshal => ['M', 'A', 'R', 'S', 'H', 'A', 'L']
  | .unmarshal => ['U', 'N', 'M', 'A', 'R', 'S', 'H', 'A', 'L']
  | .hexSum => ['H', 'E', 'X', '_', 'S', 'U', 'M']

/-- `<UNIT>.<OPERATION>`. -/
def commandName (u : AccUnit) (op : Op) : List Char := unitName u ++ '.' :: opName op

/-- The word for the hardware reset event (R73). -/
def hwResetName : List Char := ['H', 'W', 'R', 'E', 'S', 'E', 'T']

/-- The names of R71. -/
def statusName : Status → List Char
  | .ok => ['O', 'K']
  | .invalidLength => ['I', 'n', 'v', 'a', 'l', 'i', 'd', 'L', 'e', 'n', 'g', 't', 'h']
  | .illegalCommand => ['I', 'l', 'l', 'e', 'g', 'a', 'l', 'C', 'o', 'm', 'm', 'a', 'n', 'd']

/-! ## Printing -/

/-- A byte as two uppercase hexadecimal digits. -/
def byteText (b : Byte) : List Char := (hexDigits b).map fun d => Char.ofNat d.toNat

/-- Bytes separated by single spaces. -/
def bytesText : List Byte → List Char
  | [] => []
  | [b] => byteText b
  | b :: c :: rest => byteText b ++ ' ' :: bytesText (c :: rest)

/-- A payload operand: `[]`, or the bytes. -/
def payloadText (s : List Byte) : List Char := if s = [] then ['[', ']'] else bytesText s

/-- A command on one line (R73): the payload is present only for format P. -/
def instrText (i : Instr) : List Char :=
  commandName i.unit i.op ++
    match i.op.format with
    | .n => []
    | .p => ' ' :: payloadText i.payload

/-- A line of a program. -/
def AsmLine.text : AsmLine → List Char
  | .command i => instrText i
  | .hwReset => hwResetName

/-- `-> STATUS num=<n> data=[<hex bytes>]` (R73). -/
def Response.text (r : Response) : List Char :=
  ['-', '>', ' '] ++ statusName r.status ++ [' ', 'n', 'u', 'm', '='] ++ Nat.toDigits 10 r.num ++
    [' ', 'd', 'a', 't', 'a', '=', '['] ++ bytesText r.data ++ [']']

/-! ## Parsing -/

/-- What is left of a line holds nothing but spaces and a comment. -/
def atLineEnd (cs : List Char) : Bool :=
  match cs.dropWhile (· == ' ') with
  | [] => true
  | c :: _ => c == ';'

/-- A hexadecimal digit, of either case. -/
def nibbleOfChar (c : Char) : Option Nibble :=
  if '0' ≤ c ∧ c ≤ '9' then some (BitVec.ofNat 4 (c.toNat - 0x30))
  else if 'A' ≤ c ∧ c ≤ 'F' then some (BitVec.ofNat 4 (c.toNat - 0x37))
  else if 'a' ≤ c ∧ c ≤ 'f' then some (BitVec.ofNat 4 (c.toNat - 0x57))
  else none

/-- Two hexadecimal digits, high nibble first. -/
def byteOfWord : List Char → Option Byte
  | [a, b] =>
    match nibbleOfChar a, nibbleOfChar b with
    | some hi, some lo => some (BitVec.ofNat 8 (16 * hi.toNat + lo.toNat))
    | _, _ => none
  | _ => none

/-- The words between spaces, empty ones among them. -/
def splitSpaces : List Char → List (List Char)
  | [] => [[]]
  | c :: cs =>
    if c = ' ' then [] :: splitSpaces cs
    else
      match splitSpaces cs with
      | [] => [[c]]
      | w :: ws => (c :: w) :: ws

/-- All of them bytes. -/
def bytesOfWords : List (List Char) → Option (List Byte)
  | [] => some []
  | w :: ws =>
    match byteOfWord w, bytesOfWords ws with
    | some b, some bs => some (b :: bs)
    | _, _ => none

/-- The rest of a quoted ASCII string, one byte per character (R73, R10). -/
def bytesOfQuoted : List Char → Option (List Byte)
  | [] => none
  | c :: cs =>
    if c = '"' then (if atLineEnd cs then some [] else none)
    else if c.toNat < 128 then
      match bytesOfQuoted cs with
      | some bs => some (BitVec.ofNat 8 c.toNat :: bs)
      | none => none
    else none

/-- A payload operand: `[]`, a quoted string, or at least one hexadecimal byte. -/
def payloadOfText (cs : List Char) : Option (List Byte) :=
  match cs.dropWhile (· == ' ') with
  | '[' :: ']' :: rest => if atLineEnd rest then some [] else none
  | '"' :: rest => bytesOfQuoted rest
  | rest =>
    match bytesOfWords ((splitSpaces (rest.takeWhile (· != ';'))).filter (· != [])) with
    | some (b :: bs) => some (b :: bs)
    | _ => none

/-- Every unit with every operation. -/
def namedCommands : List (AccUnit × Op) :=
  [.write, .blockSize, .digestSize, .sum8, .sum, .reset, .marshal, .unmarshal, .hexSum].flatMap
    fun op => [(.bcc, op), (.lrc, op)]

/-- The line a text stands for; none where it is no line of R73. -/
def lineOfText (cs : List Char) : Option AsmLine :=
  let name := cs.takeWhile fun c => c != ' ' && c != ';'
  let rest := cs.dropWhile fun c => c != ' ' && c != ';'
  if name = hwResetName then (if atLineEnd rest then some .hwReset else none)
  else
    match namedCommands.find? fun p => commandName p.1 p.2 == name with
    | none => none
    | some (u, op) =>
      match op.format with
      | .n => if atLineEnd rest then (commandOf u op []).map .command else none
      | .p =>
        match payloadOfText rest with
        | some s => (commandOf u op s).map .command
        | none => none

/-- What a line presents to the core (R73): a command's frame, or the hardware reset event. -/
def AsmLine.event : AsmLine → Event
  | .command i => .frame (encode i)
  | .hwReset => .hwReset

end Sys2Proof.Machine
end

