-- ==== Sys2Proof/Safety.lean ====
section
/-! DEFINITION. The terms claims are written in: what the host owes (spec/30_encoding.md R66), what a response may
look like (R70, R71), the classes of command (spec/40_contract.md R94), the commands of one unit, the runs of R205
and the history of spec/10_state.md R30. -/

namespace Sys2Proof

/-! ## Classes of command (R94, R160) -/

/-- The operations that change no register (R94). -/
def Op.isPureRead : Op → Bool
  | .write => false
  | .reset => false
  | .unmarshal => false
  | .blockSize => true
  | .digestSize => true
  | .sum8 => true
  | .sum => true
  | .marshal => true
  | .hexSum => true

/-- A command that changes no register (R94). -/
def Instr.isPureRead (i : Instr) : Bool := i.op.isPureRead

/-- A command that answers `InvalidLength` (R160). -/
def Instr.failsUnmarshal (i : Instr) : Bool := i.op == .unmarshal && i.payload.length != 1

/-! ## The commands of the shared contract, by unit (R103) -/

/-- `u.WRITE s`. -/
def AccUnit.writeCmd : AccUnit → List Byte → Instr
  | .bcc, s => .bccWrite s
  | .lrc, s => .lrcWrite s

/-- `u.SUM8`. -/
def AccUnit.sum8Cmd : AccUnit → Instr
  | .bcc => .bccSum8
  | .lrc => .lrcSum8

/-- `u.RESET`. -/
def AccUnit.resetCmd : AccUnit → Instr
  | .bcc => .bccReset
  | .lrc => .lrcReset

/-- `u.MARSHAL`. -/
def AccUnit.marshalCmd : AccUnit → Instr
  | .bcc => .bccMarshal
  | .lrc => .lrcMarshal

/-- `u.UNMARSHAL s`. -/
def AccUnit.unmarshalCmd : AccUnit → List Byte → Instr
  | .bcc, s => .bccUnmarshal s
  | .lrc, s => .lrcUnmarshal s

end Sys2Proof

namespace Sys2Proof.Machine

/-! ## What the host owes, and a safe run -/

/-- An event the host may present: its payload is within `MAX_LEN`, or it is answered `IllegalCommand` anyway
(R65, R66). -/
def Event.withinBound (maxLen : Option Nat) : Event → Bool
  | .frame bytes => decide (decode maxLen bytes ≠ .refused)
  | .hwReset => true

/-- The host keeps the precondition of R66 in all it has yet to present. -/
def State.hostKeepsBound (s : State) : Bool := s.pending.all (Event.withinBound s.params.maxLen)

/-- A run over all that is pending (R205): `s.pending.length` steps, each a whole command or a hardware reset. -/
def State.runAll (s : State) : Host.Outcome State Fault Refusal := Sys2Proof.core.run s.pending.length s

/-- What the host presents when it presents a command: its frame (R60). -/
def commandEvent (i : Instr) : Event := .frame (encode i)

/-- A safe run: it is performed to its end, neither refused nor faulted. -/
def State.runsSafely (s : State) : Prop := ∃ t, s.runAll = .next t

/-! ## The table of illegal frames -/

/-- The rows of R67's table, in its own numbers: the empty frame; header 0x20 to 0xFF; 0x09 to 0x0F and 0x19 to 0x1F;
0x08; a header of format N with a payload. -/
def listedIllegal (bytes : List Byte) : Prop :=
  bytes = [] ∨ ∃ h payload, bytes = h :: payload ∧
    (0x20 ≤ h.toNat ∨ (0x09 ≤ h.toNat ∧ h.toNat ≤ 0x0F) ∨ (0x19 ≤ h.toNat ∧ h.toNat ≤ 0x1F) ∨ h = 0x08 ∨
      (h ∈ ([0x01, 0x02, 0x03, 0x05, 0x06, 0x11, 0x12, 0x13, 0x15, 0x16] : List Byte) ∧ payload ≠ []))

/-! ## Responses -/

/-- R70: a failure has `num = 0` and `data = []`, and never both fields carry a result. -/
def Response.wellFormed (r : Response) : Bool :=
  decide ((r.status ≠ .ok → r.num = 0 ∧ r.data = []) ∧ (r.num ≠ 0 → r.data = []))

/-- Every response given so far has the form of R70. -/
def State.responsesWellFormed (s : State) : Bool := s.responses.all Response.wellFormed

/-! ## Classes of event (R94, R164, R22) -/

/-- A frame that decodes to a pure read (R94). -/
def Event.isPureRead (maxLen : Option Nat) : Event → Bool
  | .frame bytes =>
    match decode maxLen bytes with
    | .command i => i.isPureRead
    | .illegal _ => false
    | .refused => false
  | .hwReset => false

/-- A frame that is answered with an error: illegal, or a failing `UNMARSHAL` (R160, R161). -/
def Event.isFailing (maxLen : Option Nat) : Event → Bool
  | .frame bytes =>
    match decode maxLen bytes with
    | .command i => i.failsUnmarshal
    | .illegal _ => true
    | .refused => false
  | .hwReset => false

/-- An event that concerns no unit but `u`: a command that names `u`, an illegal frame, or hardware reset
(R22). -/
def Event.concernsOnly (maxLen : Option Nat) (u : AccUnit) : Event → Bool
  | .frame bytes =>
    match decode maxLen bytes with
    | .command i => decide (i.unit = u)
    | .illegal _ => true
    | .refused => false
  | .hwReset => true

/-- The frame, when the event is one. -/
def Event.isFrame : Event → Bool
  | .frame _ => true
  | .hwReset => false

/-! ## History (R30) -/

/-- `base` and `H` of R30 for one unit: the value its register was last set to, and the concatenation of the
payloads written to it since. -/
structure History where
  base : Byte
  written : List Byte
deriving DecidableEq, Repr

/-- What one command makes of the history of unit `u` (R30). -/
def History.after (u : AccUnit) (h : History) (i : Instr) : History :=
  if i.unit = u then
    match i.op, i.payload with
    | .write, s => { h with written := h.written ++ s }
    | .reset, _ => { base := 0x00, written := [] }
    | .unmarshal, [b] => { base := b, written := [] }
    | _, _ => h
  else h

/-- What one event makes of it: hardware reset sets the register to 0 (R30, R191); an illegal frame changes nothing
(R161). -/
def History.afterEvent (maxLen : Option Nat) (u : AccUnit) (h : History) : Event → History
  | .hwReset => { base := 0x00, written := [] }
  | .frame bytes =>
    match decode maxLen bytes with
    | .command i => h.after u i
    | .illegal _ => h
    | .refused => h

/-- The history of unit `u` after a list of events. -/
def History.afterAll (maxLen : Option Nat) (u : AccUnit) (h : History) (es : List Event) : History :=
  es.foldl (History.afterEvent maxLen u) h

end Sys2Proof.Machine
end

