-- ==== Sys2Proof/Certificates/Slice0/Obligations.lean ====
section
/-! DEFINITION. The statements about this model, from the numbered rules of spec/. -/

open Sys2Proof Sys2Proof.Machine

/-! ## What each command does: its whole next state, so its frame as well -/

/-- R110: bit `i` of the BCC combination is 1 exactly when the operands' bits differ. R111: the BCC digest is the
register. -/
def Obligations.BccCombineIsXorAndDigestIsIdentity : Prop :=
  (∀ (v b : Byte) (i : Nat), i < 8 → ((comb .bcc v b).getLsbD i = true ↔ v.getLsbD i ≠ b.getLsbD i)) ∧
  ∀ v : Byte, digest .bcc v = v

/-- R112: `BCC.WRITE` leaves the XOR of the register and every payload byte, answers the payload's length, and
changes nothing else. -/
def Obligations.BccWriteXorsEveryByte : Prop :=
  ∀ (bs : List Byte) (s : State),
    exec (.bccWrite bs) s = .next { s with
      accBcc := bs.foldl (fun v b => v ^^^ b) s.accBcc
      responses := s.responses ++ [⟨.ok, bs.length, []⟩] }

/-- R133: `LRC.WRITE` leaves the sum mod 256 of the register and every payload byte, answers the payload's length,
and changes nothing else. -/
def Obligations.LrcWriteAddsEveryByteModulo256 : Prop :=
  ∀ (bs : List Byte) (s : State),
    exec (.lrcWrite bs) s = .next { s with
      accLrc := BitVec.ofNat 8 ((s.accLrc.toNat + (bs.map BitVec.toNat).sum) % 256)
      responses := s.responses ++ [⟨.ok, bs.length, []⟩] }

/-- R113, R114, R134, R135: the four size commands answer 1 in every state and change nothing. -/
def Obligations.SizeCommandsAnswerOne : Prop :=
  ∀ s : State,
    exec .bccBlockSize s = .next { s with responses := s.responses ++ [⟨.ok, 1, []⟩] } ∧
    exec .bccDigestSize s = .next { s with responses := s.responses ++ [⟨.ok, 1, []⟩] } ∧
    exec .lrcBlockSize s = .next { s with responses := s.responses ++ [⟨.ok, 1, []⟩] } ∧
    exec .lrcDigestSize s = .next { s with responses := s.responses ++ [⟨.ok, 1, []⟩] }

/-- R115, R116, R118: `BCC.SUM8`, `BCC.SUM` and `BCC.MARSHAL` report the register and change nothing. -/
def Obligations.BccReadsReportTheRegister : Prop :=
  ∀ (bs : List Byte) (s : State),
    exec .bccSum8 s = .next { s with responses := s.responses ++ [⟨.ok, 0, [s.accBcc]⟩] } ∧
    exec (.bccSum bs) s = .next { s with responses := s.responses ++ [⟨.ok, 0, bs ++ [s.accBcc]⟩] } ∧
    exec .bccMarshal s = .next { s with responses := s.responses ++ [⟨.ok, 0, [s.accBcc]⟩] }

/-- R136, R137, R139: `LRC.SUM8` and `LRC.SUM` report `(256 - acc[LRC]) mod 256`, `LRC.MARSHAL` the raw register, and
they change nothing. -/
def Obligations.LrcReadsReportDigestMarshalReportsSum : Prop :=
  ∀ (bs : List Byte) (s : State),
    exec .lrcSum8 s = .next { s with
      responses := s.responses ++ [⟨.ok, 0, [BitVec.ofNat 8 ((256 - s.accLrc.toNat) % 256)]⟩] } ∧
    exec (.lrcSum bs) s = .next { s with
      responses := s.responses ++ [⟨.ok, 0, bs ++ [BitVec.ofNat 8 ((256 - s.accLrc.toNat) % 256)]⟩] } ∧
    exec .lrcMarshal s = .next { s with responses := s.responses ++ [⟨.ok, 0, [s.accLrc]⟩] }

/-- R141, R132: `LRC.HEX_SUM` appends the digits of `(256 - acc[LRC]) mod 256`, divided by 16 and mod 16, by R132's
table, and changes nothing. -/
def Obligations.LrcHexSumAppendsTwoUppercaseDigits : Prop :=
  ∀ (bs : List Byte) (s : State),
    let digits : List Byte := [0x30, 0x31, 0x32, 0x33, 0x34, 0x35, 0x36, 0x37, 0x38, 0x39, 0x41, 0x42, 0x43, 0x44, 0x45, 0x46]
    let d := (256 - s.accLrc.toNat) % 256
    exec (.lrcHexSum bs) s = .next { s with
      responses := s.responses ++ [⟨.ok, 0, bs ++ [digits.getD (d / 16) 0, digits.getD (d % 16) 0]⟩] }

/-- R117, R138: `RESET` sets its own unit's register to 0x00 and changes nothing else. -/
def Obligations.ResetCommandsClearOwnRegister : Prop :=
  ∀ s : State,
    exec .bccReset s = .next { s with accBcc := 0x00, responses := s.responses ++ [⟨.ok, 0, []⟩] } ∧
    exec .lrcReset s = .next { s with accLrc := 0x00, responses := s.responses ++ [⟨.ok, 0, []⟩] }

/-- R119, R140, R160: `UNMARSHAL` of one byte sets the register to it; of any other length it answers
`InvalidLength` and, under `preserve` (this hardware), changes no register. Under `any` its own register is left
open and everything else is as before. -/
def Obligations.UnmarshalRestoresOneByteOrFails : Prop :=
  (∀ (b : Byte) (s : State),
    exec (.bccUnmarshal [b]) s = .next { s with accBcc := b, responses := s.responses ++ [⟨.ok, 0, []⟩] } ∧
    exec (.lrcUnmarshal [b]) s = .next { s with accLrc := b, responses := s.responses ++ [⟨.ok, 0, []⟩] }) ∧
  (∀ (bs : List Byte) (s : State), bs.length ≠ 1 → s.params.unmarshalFail = .preserve →
    exec (.bccUnmarshal bs) s = .next { s with responses := s.responses ++ [⟨.invalidLength, 0, []⟩] } ∧
    exec (.lrcUnmarshal bs) s = .next { s with responses := s.responses ++ [⟨.invalidLength, 0, []⟩] }) ∧
  (∀ (bs : List Byte) (s : State), bs.length ≠ 1 → s.params.unmarshalFail = .any →
    (∃ t, exec (.bccUnmarshal bs) s = .next t ∧ t.accLrc = s.accLrc ∧ t.pending = s.pending ∧
      t.params = s.params ∧ t.responses = s.responses ++ [⟨.invalidLength, 0, []⟩]) ∧
    (∃ t, exec (.lrcUnmarshal bs) s = .next t ∧ t.accBcc = s.accBcc ∧ t.pending = s.pending ∧
      t.params = s.params ∧ t.responses = s.responses ++ [⟨.invalidLength, 0, []⟩]))

/-- DESIGN CHOICE, log 5: where U1 leaves the register an arbitrary byte, the model takes its free byte for this
draw and counts the draw. It holds whatever that byte is. -/
def Obligations.FailedUnmarshalDrawsOneFreeByte : Prop :=
  ∀ (bs : List Byte) (s : State), bs.length ≠ 1 → s.params.unmarshalFail = .any →
    exec (.bccUnmarshal bs) s = .next { s with
      accBcc := Config.freeByte s.draws, draws := s.draws + 1
      responses := s.responses ++ [⟨.invalidLength, 0, []⟩] } ∧
    exec (.lrcUnmarshal bs) s = .next { s with
      accLrc := Config.freeByte s.draws, draws := s.draws + 1
      responses := s.responses ++ [⟨.invalidLength, 0, []⟩] }

/-! ## Whole-machine rules about commands -/

/-- R93: every command completes in every state with exactly one response, and takes nothing else with it: what is
pending and the parameters stand. -/
def Obligations.EveryCommandCompletesWithOneResponse : Prop :=
  ∀ (i : Instr) (s : State), ∃ t r, exec i s = .next t ∧ t.responses = s.responses ++ [r] ∧
    t.pending = s.pending ∧ t.params = s.params

/-- R162: a command answers `InvalidLength` when it is an `UNMARSHAL` of a length other than 1, and `OK` in every
other case; an illegal frame answers `IllegalCommand`. -/
def Obligations.OnlyWrongLengthUnmarshalFails : Prop :=
  (∀ (i : Instr) (s : State), ∃ t r, exec i s = .next t ∧ t.responses = s.responses ++ [r] ∧
    r.status = if i.op = .unmarshal ∧ i.payload.length ≠ 1 then .invalidLength else .ok) ∧
  (∀ (s : State) (bytes : List Byte) (rest : List Event) (why : IllegalReason), s.pending = .frame bytes :: rest →
    decode s.params.maxLen bytes = .illegal why →
    ∃ t r, step s = .next t ∧ t.responses = s.responses ++ [r] ∧ r.status = .illegalCommand)

/-- R22: a command neither writes nor reads the register of the other unit, and its response does not depend on it.
(Where `any` leaves the own register open after a failed `UNMARSHAL`, nothing is said of what two such failures leave
there: log 5.) -/
def Obligations.CommandsIgnoreTheOtherUnit : Prop :=
  (∀ (i : Instr) (s t : State) (v : Byte), i.unit = .bcc → exec i s = .next t →
    t.accLrc = s.accLrc ∧
    (∃ t', exec i { s with accLrc := v } = .next t' ∧ t'.accLrc = v ∧ t'.responses = t.responses) ∧
    (s.params.unmarshalFail = .preserve ∨ i.failsUnmarshal = false →
      exec i { s with accLrc := v } = .next { t with accLrc := v })) ∧
  (∀ (i : Instr) (s t : State) (v : Byte), i.unit = .lrc → exec i s = .next t →
    t.accBcc = s.accBcc ∧
    (∃ t', exec i { s with accBcc := v } = .next t' ∧ t'.accBcc = v ∧ t'.responses = t.responses) ∧
    (s.params.unmarshalFail = .preserve ∨ i.failsUnmarshal = false →
      exec i { s with accBcc := v } = .next { t with accBcc := v }))

/-- R95: the count a `WRITE` answers is its payload's length, for every payload in every state. -/
def Obligations.WriteCountIsPayloadLength : Prop :=
  ∀ (u : AccUnit) (bs : List Byte) (s : State), ∃ t, exec (u.writeCmd bs) s = .next t ∧
    t.responses = s.responses ++ [⟨.ok, bs.length, []⟩]

/-- R94: which commands may change a register, which can fail, and what each response depends on. -/
def Obligations.WhatCommandsMayChangeAndDependOn : Prop :=
  (∀ (i : Instr) (s t : State), i.op ≠ .write → i.op ≠ .reset → i.op ≠ .unmarshal → exec i s = .next t →
    t.accBcc = s.accBcc ∧ t.accLrc = s.accLrc) ∧
  (∀ (i : Instr) (s t : State) (r : Response), exec i s = .next t → t.responses = s.responses ++ [r] →
    r.status ≠ .ok → i.op = .unmarshal) ∧
  (∀ (i : Instr) (s t t' : State) (a b : Byte),
    i.op ≠ .sum8 → i.op ≠ .sum → i.op ≠ .marshal → i.op ≠ .hexSum →
    exec i s = .next t → exec i { s with accBcc := a, accLrc := b } = .next t' → t'.responses = t.responses) ∧
  (∀ (i j : Instr) (s t t' : State), i.unit = j.unit → i.op = j.op → i.op ≠ .sum → i.op ≠ .hexSum →
    i.payload.length = j.payload.length → exec i s = .next t → exec j s = .next t' → t'.responses = t.responses)

/-- R47: a pure read changes no register and answers the same however often it is repeated; `RESET` and a one-byte
`UNMARSHAL` are idempotent; `BCC.WRITE` twice restores the register and `LRC.WRITE` twice adds the sum twice. -/
def Obligations.ReadsRepeatAndWhichWritesAreIdempotent : Prop :=
  (∀ (i : Instr) (s : State), i.isPureRead = true → ∃ r, ∀ rs : List Response,
    exec i { s with responses := rs } = .next { s with responses := rs ++ [r] }) ∧
  (∀ (u : AccUnit) (s : State), ∃ t t', exec u.resetCmd s = .next t ∧ exec u.resetCmd t = .next t' ∧
    t'.accBcc = t.accBcc ∧ t'.accLrc = t.accLrc) ∧
  (∀ (u : AccUnit) (b : Byte) (s : State), ∃ t t', exec (u.unmarshalCmd [b]) s = .next t ∧
    exec (u.unmarshalCmd [b]) t = .next t' ∧ t'.accBcc = t.accBcc ∧ t'.accLrc = t.accLrc) ∧
  (∀ (bs : List Byte) (s : State), ∃ t t', exec (.bccWrite bs) s = .next t ∧ exec (.bccWrite bs) t = .next t' ∧
    t'.accBcc = s.accBcc) ∧
  (∀ (bs : List Byte) (s : State), ∃ t t', exec (.lrcWrite bs) s = .next t ∧ exec (.lrcWrite bs) t = .next t' ∧
    t'.accLrc.toNat = (s.accLrc.toNat + 2 * (bs.map BitVec.toNat).sum) % 256)

/-- R49: commands to different units commute: the same registers and the same two responses in either order. The
premise is this hardware's `UNMARSHAL_FAIL`: under `any` two failures draw their free bytes in turn. -/
def Obligations.CommandsToDifferentUnitsCommute : Prop :=
  ∀ (i j : Instr) (s : State), i.unit ≠ j.unit → s.params.unmarshalFail = .preserve →
    ∃ si sj sij sji ri rj, exec i s = .next si ∧ exec j si = .next sij ∧ exec j s = .next sj ∧
      exec i sj = .next sji ∧ sij.accBcc = sji.accBcc ∧ sij.accLrc = sji.accLrc ∧
      sij.responses = s.responses ++ [ri, rj] ∧ sji.responses = s.responses ++ [rj, ri]

/-- R96: `SUM` and `HEX_SUM` copy their payload through; `SUM` answers one byte more, the digest `SUM8` answers, and
`HEX_SUM` two bytes more. -/
def Obligations.SumAndHexSumCopyThePayload : Prop :=
  ∀ (bs : List Byte) (s : State),
    (∃ t t' d, exec (.bccSum bs) s = .next t ∧ exec .bccSum8 s = .next t' ∧
      t.responses = s.responses ++ [⟨.ok, 0, bs ++ [d]⟩] ∧ t'.responses = s.responses ++ [⟨.ok, 0, [d]⟩]) ∧
    (∃ t t' d, exec (.lrcSum bs) s = .next t ∧ exec .lrcSum8 s = .next t' ∧
      t.responses = s.responses ++ [⟨.ok, 0, bs ++ [d]⟩] ∧ t'.responses = s.responses ++ [⟨.ok, 0, [d]⟩]) ∧
    (∃ t c k, exec (.lrcHexSum bs) s = .next t ∧ t.responses = s.responses ++ [⟨.ok, 0, bs ++ [c, k]⟩])

/-- R101: after `u.RESET`, whatever came before, `u.SUM8` answers 0x00. -/
def Obligations.ResetThenSum8AnswersZero : Prop :=
  ∀ (u : AccUnit) (s : State), ∃ t t', exec u.resetCmd s = .next t ∧ exec u.sum8Cmd t = .next t' ∧
    t'.responses = t.responses ++ [⟨.ok, 0, [0x00]⟩]

/-- R122, R145: if `u.SUM8` answers `[d]`, writing `[d]` makes the register 0x00, and `LRC.SUM8` then answers
`[0x00]`. -/
def Obligations.WritingOwnDigestGivesZero : Prop :=
  (∀ s : State, ∃ t t' d, exec .bccSum8 s = .next t ∧ t.responses = s.responses ++ [⟨.ok, 0, [d]⟩] ∧
    exec (.bccWrite [d]) t = .next t' ∧ t'.accBcc = 0x00) ∧
  (∀ s : State, ∃ t t' t'' d, exec .lrcSum8 s = .next t ∧ t.responses = s.responses ++ [⟨.ok, 0, [d]⟩] ∧
    exec (.lrcWrite [d]) t = .next t' ∧ t'.accLrc = 0x00 ∧
    exec .lrcSum8 t' = .next t'' ∧ t''.responses = t'.responses ++ [⟨.ok, 0, [0x00]⟩])

/-! ## Laws of the two units -/

/-- R91: the two equations of the fold, and the fold of a concatenation. -/
def Obligations.FoldOfConcatenation : Prop :=
  ∀ (u : AccUnit) (v b : Byte) (bs cs : List Byte),
    fold u v [] = v ∧ fold u v ([b] ++ bs) = fold u (comb u v b) bs ∧
    fold u v (bs ++ cs) = fold u (fold u v bs) cs

/-- R120: XOR on bytes is commutative, associative, has 0x00 as identity, makes every byte its own inverse, and with
0xFF is NOT; so the BCC fold ignores the order of the bytes, twice is nothing, and the start value factors out. -/
def Obligations.BccFoldFollowsXorLaws : Prop :=
  (∀ a b c : Byte, comb .bcc a b = comb .bcc b a ∧ comb .bcc (comb .bcc a b) c = comb .bcc a (comb .bcc b c) ∧
    comb .bcc a 0x00 = a ∧ comb .bcc a a = 0x00 ∧ comb .bcc a 0xFF = ~~~a) ∧
  (∀ (v : Byte) (bs cs : List Byte), bs.Perm cs → fold .bcc v bs = fold .bcc v cs) ∧
  (∀ (v : Byte) (bs : List Byte), fold .bcc (fold .bcc v bs) bs = v) ∧
  (∀ (v : Byte) (bs : List Byte), fold .bcc v bs = v ^^^ fold .bcc 0x00 bs)

/-- R142: addition mod 256 is commutative, associative, has 0x00 as identity and the digest as inverse; so the LRC
fold ignores the order of the bytes, the start value factors out, and the reduction may be done once at the end. -/
def Obligations.LrcFoldFollowsAdditionLaws : Prop :=
  (∀ a b c : Byte, comb .lrc a b = comb .lrc b a ∧ comb .lrc (comb .lrc a b) c = comb .lrc a (comb .lrc b c) ∧
    comb .lrc a 0x00 = a ∧ comb .lrc a (digest .lrc a) = 0x00) ∧
  (∀ (v : Byte) (bs cs : List Byte), bs.Perm cs → fold .lrc v bs = fold .lrc v cs) ∧
  (∀ (v : Byte) (bs : List Byte), (fold .lrc v bs).toNat = (v.toNat + (fold .lrc 0x00 bs).toNat) % 256) ∧
  (∀ bs : List Byte, (fold .lrc 0x00 bs).toNat = (bs.map BitVec.toNat).sum % 256)

/-- R143: the two's complement on bytes is its own inverse (so a bijection), its fixed points are exactly 0x00 and
0x80, off zero it is `256 - v`, it distributes over the sum, and it is NOT plus 1. -/
def Obligations.TwosComplementLaws : Prop :=
  (∀ v : Byte, digest .lrc (digest .lrc v) = v) ∧
  (∀ v w : Byte, digest .lrc v = digest .lrc w → v = w) ∧
  (∀ v : Byte, digest .lrc v = v ↔ v = 0x00 ∨ v = 0x80) ∧
  (∀ v : Byte, v ≠ 0x00 → (digest .lrc v).toNat = 256 - v.toNat) ∧
  (∀ a b : Byte, digest .lrc (BitVec.ofNat 8 ((a.toNat + b.toNat) % 256)) =
    BitVec.ofNat 8 (((digest .lrc a).toNat + (digest .lrc b).toNat) % 256)) ∧
  (∀ v : Byte, (digest .lrc v).toNat = ((~~~v).toNat + 1) % 256)

/-- R146: the two characters are digits of R132's table whose nibbles give the digest back, high one first. -/
def Obligations.HexDigitsDetermineTheDigest : Prop :=
  ∀ d : Byte, ∃ hi lo : Nibble, hexDigits d = [hexdigit hi, hexdigit lo] ∧ d.toNat = 16 * hi.toNat + lo.toNat ∧
    ∀ e : Byte, hexDigits e = hexDigits d → e = d

/-! ## The step -/

/-- R90: when the frame presented next decodes to a command, the step is `exec` of that command in the state with the
frame taken off the list. -/
def Obligations.StepPerformsTheDecodedCommand : Prop :=
  (∀ (s : State) (bytes : List Byte) (rest : List Event) (i : Instr), s.pending = .frame bytes :: rest →
    decode s.params.maxLen bytes = .command i → step s = exec i { s with pending := rest }) ∧
  (∀ (s : State) (rest : List Event) (i : Instr), s.pending = .frame (encode i) :: rest →
    i.wellFormed s.params.maxLen = true → step s = exec i { s with pending := rest })

/-- R161: an illegal frame is answered `(IllegalCommand, 0, [])` and nothing else changes. -/
def Obligations.StepAnswersIllegalFrames : Prop :=
  ∀ (s : State) (bytes : List Byte) (rest : List Event) (r : IllegalReason), s.pending = .frame bytes :: rest →
    decode s.params.maxLen bytes = .illegal r →
    step s = .next { s with pending := rest, responses := s.responses ++ [⟨.illegalCommand, 0, []⟩] }

/-- R190, R191: hardware reset sets both registers to 0x00, answers nothing and changes nothing else; after it the
digests, the marshalled bytes, the hex digits and the sizes are those of R191. -/
def Obligations.HardwareResetClearsBothRegisters : Prop :=
  ∀ (s : State) (rest : List Event), s.pending = .hwReset :: rest →
    ∃ t, step s = .next t ∧ t = { s with pending := rest, accBcc := 0x00, accLrc := 0x00 } ∧
      exec .bccSum8 t = .next { t with responses := t.responses ++ [⟨.ok, 0, [0x00]⟩] } ∧
      exec .lrcSum8 t = .next { t with responses := t.responses ++ [⟨.ok, 0, [0x00]⟩] } ∧
      exec .bccMarshal t = .next { t with responses := t.responses ++ [⟨.ok, 0, [0x00]⟩] } ∧
      exec .lrcMarshal t = .next { t with responses := t.responses ++ [⟨.ok, 0, [0x00]⟩] } ∧
      exec (.lrcHexSum []) t = .next { t with responses := t.responses ++ [⟨.ok, 0, [0x30, 0x30]⟩] } ∧
      exec .bccBlockSize t = .next { t with responses := t.responses ++ [⟨.ok, 1, []⟩] } ∧
      exec .bccDigestSize t = .next { t with responses := t.responses ++ [⟨.ok, 1, []⟩] } ∧
      exec .lrcBlockSize t = .next { t with responses := t.responses ++ [⟨.ok, 1, []⟩] } ∧
      exec .lrcDigestSize t = .next { t with responses := t.responses ++ [⟨.ok, 1, []⟩] }

/-- R192: for the unit concerned the state after `RESET` is the state after hardware reset; `u.RESET` leaves the other
unit alone and answers, hardware reset sets both and answers nothing. -/
def Obligations.ResetCommandsComparedWithHardwareReset : Prop :=
  ∀ (u w : AccUnit) (s : State), w ≠ u → ∃ t t', exec u.resetCmd s = .next t ∧
    step (s.presenting [.hwReset]) = .next t' ∧
    t.acc u = t'.acc u ∧ t.acc w = s.acc w ∧ t'.acc w = 0x00 ∧
    t.responses = s.responses ++ [⟨.ok, 0, []⟩] ∧ t'.responses = s.responses

/-- R66 (and R65's `Refused`): the only refusal is that of a legal frame whose payload is over `MAX_LEN`, and that
frame is always refused. -/
def Obligations.StepRefusesExactlyOverlongPayloads : Prop :=
  ∀ (s : State) (r : Refusal), step s = .refused r ↔
    r = .payloadTooLong ∧ ∃ h payload rest m, s.pending = .frame (h :: payload) :: rest ∧
      s.params.maxLen = some m ∧ m < payload.length ∧
      h ∈ ([0x00, 0x04, 0x07, 0x10, 0x14, 0x17, 0x18] : List Byte)

/-- R71, R163: the response to a frame has code 2 when the frame is illegal, 1 when it is an `UNMARSHAL` of a length
other than 1, and 0 otherwise; code 3 is never produced. -/
def Obligations.StatusCodesAsListed : Prop :=
  ∀ (s t : State) (bytes : List Byte) (rest : List Event), s.pending = .frame bytes :: rest → step s = .next t →
    ∃ r, t.responses = s.responses ++ [r] ∧
      ((∃ i, decode s.params.maxLen bytes = .command i ∧
          r.status.code = if i.op = .unmarshal ∧ i.payload.length ≠ 1 then 1 else 0) ∨
        (∃ reason, decode s.params.maxLen bytes = .illegal reason ∧ r.status.code = 2)) ∧
      r.status.code ≠ 3

/-- DESIGN CHOICE, log 3: with nothing presented the model's step changes nothing. -/
def Obligations.StepWithNothingPendingChangesNothing : Prop :=
  ∀ s : State, s.pending = [] → step s = .next s

/-- The parameters of R8 are fixed for the machine (DESIGN CHOICE, log 4: where the model keeps them), and on this
hardware no free byte is drawn (log 5). -/
def Obligations.ParametersNeverChange : Prop :=
  ∀ s t : State, step s = .next t →
    t.params = s.params ∧ (s.params.unmarshalFail = .preserve → t.draws = s.draws)

/-! ## Encoding -/

/-- R64: the header of each of the 17 commands, and the payload after it (R60). -/
def Obligations.HeadersOfThe17Commands : Prop :=
  ∀ s : List Byte,
    encode (.bccWrite s) = 0x00 :: s ∧ encode .bccBlockSize = [0x01] ∧ encode .bccDigestSize = [0x02] ∧
    encode .bccSum8 = [0x03] ∧ encode (.bccSum s) = 0x04 :: s ∧ encode .bccReset = [0x05] ∧
    encode .bccMarshal = [0x06] ∧ encode (.bccUnmarshal s) = 0x07 :: s ∧
    encode (.lrcWrite s) = 0x10 :: s ∧ encode .lrcBlockSize = [0x11] ∧ encode .lrcDigestSize = [0x12] ∧
    encode .lrcSum8 = [0x13] ∧ encode (.lrcSum s) = 0x14 :: s ∧ encode .lrcReset = [0x15] ∧
    encode .lrcMarshal = [0x16] ∧ encode (.lrcUnmarshal s) = 0x17 :: s ∧ encode (.lrcHexSum s) = 0x18 :: s

/-- Words written out from R61 and R64 decode to the commands they stand for. -/
def Obligations.WrittenOutWordsDecode : Prop :=
  decodeTableWord 8 0b00000000 = some (.bccWrite []) ∧ decodeTableWord 8 0b00000101 = some .bccReset ∧
  decodeTableWord 8 0b00010011 = some .lrcSum8 ∧ decodeTableWord 8 0b00011000 = some (.lrcHexSum []) ∧
  decodeTableWord 16 0x4E07 = some (.bccUnmarshal [0x4E]) ∧ decodeTableWord 8 0b00001000 = none ∧
  decodeTableWord 8 0b00110000 = none ∧ decodeTableWord 16 0x0003 = none

/-- R60, R61, R63, R64, R65: decoding the frame of a command within `MAX_LEN` gives that command, with every payload;
and a frame that decodes to a command is the frame of that command, so that every command has exactly one frame. -/
def Obligations.DecodeAndEncodeAreInverse : Prop :=
  (∀ (m : Option Nat) (i : Instr), i.wellFormed m = true → decode m (encode i) = .command i) ∧
  (∀ (m : Option Nat) (bytes : List Byte) (i : Instr), decode m bytes = .command i →
    encode i = bytes ∧ i.wellFormed m = true)

/-- R67: the illegal frames are those of its table; each is answered `(IllegalCommand, 0, [])` and changes no register;
of the 256 header values 17 are legal and 239 are illegal. -/
def Obligations.IllegalFramesAreThoseListed : Prop :=
  (∀ (m : Option Nat) (bytes : List Byte), (∃ r, decode m bytes = .illegal r) ↔ listedIllegal bytes) ∧
  (∀ (s : State) (bytes : List Byte) (rest : List Event), s.pending = .frame bytes :: rest → listedIllegal bytes →
    step s = .next { s with pending := rest, responses := s.responses ++ [⟨.illegalCommand, 0, []⟩] }) ∧
  ((List.range 256).filter fun h => (decodeTableWord 8 h).isSome).length = 17 ∧
  ((List.range 256).filter fun h => (decodeTableWord 8 h).isNone).length = 239

/-- R166: a wrong-length `UNMARSHAL` is never illegal: header 0x07 or 0x17 with any payload. -/
def Obligations.UnmarshalFramesAreNeverIllegal : Prop :=
  ∀ (m : Option Nat) (s : List Byte) (r : IllegalReason),
    decode m (0x07 :: s) ≠ .illegal r ∧ decode m (0x17 :: s) ≠ .illegal r

/-- R73, R74: the text of a line reads back as that line. -/
def Obligations.AssemblerTextReadsBack : Prop :=
  ∀ l : AsmLine, lineOfText l.text = some l

/-! ## Invariants and runs -/

/-- R28: what hardware reset leaves, and `SUM8` of either unit after it. -/
def Obligations.ResetStateHoldsZero : Prop :=
  State.reset.accBcc = 0x00 ∧ State.reset.accLrc = 0x00 ∧ Config.blockSize = 1 ∧ Config.digestSize = 1 ∧
  ∀ u : AccUnit, exec u.sum8Cmd State.reset =
    .next { State.reset with responses := State.reset.responses ++ [⟨.ok, 0, [0x00]⟩] }

/-- The invariants hold of the state after reset (its empty lists are the model's own, DESIGN CHOICE, log 1,
log 2). -/
def Obligations.ResetStateMeetsInvariants : Prop :=
  State.reset.responsesWellFormed = true ∧ State.reset.hostKeepsBound = true

/-- R70: that every response has the form of R70 (a failure carries no result, an integer result no bytes) is kept by
every step. -/
def Obligations.ResponseFormKeptByEveryStep : Prop :=
  ∀ s t : State, s.responsesWellFormed = true → step s = .next t → t.responsesWellFormed = true

/-- R93, R205: while the host keeps the bound of R66 every step completes, and it goes on keeping the bound. -/
def Obligations.NoStepStopsWhileHostKeepsBound : Prop :=
  ∀ s : State, s.hostKeepsBound = true → ∃ t, step s = .next t ∧ t.hostKeepsBound = true

/-- R93, R190, R205: a run over all that is pending comes to its end with exactly one response per frame and none per
hardware reset. -/
def Obligations.EveryRunAnswersEachFrameOnce : Prop :=
  ∀ s : State, s.hostKeepsBound = true → ∃ t, s.runAll = .next t ∧ t.pending = [] ∧
    ∃ rs, t.responses = s.responses ++ rs ∧ rs.length = s.pending.countP Event.isFrame

/-- R30: at every moment between commands each register is the fold of its history: the value it was last set to and
the bytes written since, in the closed forms of R30. The premise is this hardware's `UNMARSHAL_FAIL`. -/
def Obligations.RegistersAreTheFoldOfTheirHistory : Prop :=
  ∀ (s : State) (b l : History), s.params.unmarshalFail = .preserve → s.hostKeepsBound = true →
    s.accBcc = b.written.foldl (fun v x => v ^^^ x) b.base →
    s.accLrc.toNat = (l.base.toNat + (l.written.map BitVec.toNat).sum) % 256 →
    ∃ t, s.runAll = .next t ∧
      (let b' := b.afterAll s.params.maxLen .bcc s.pending
       t.accBcc = b'.written.foldl (fun v x => v ^^^ x) b'.base) ∧
      (let l' := l.afterAll s.params.maxLen .lrc s.pending
       t.accLrc.toNat = (l'.base.toNat + (l'.written.map BitVec.toNat).sum) % 256)

/-- R48: every command sees the effect of every earlier command and of no later one: the steps over the first events
are the run over those events alone. -/
def Obligations.EarlierEventsIgnoreLaterOnes : Prop :=
  ∀ (s : State) (es fs : List Event), s.pending = es ++ fs → s.hostKeepsBound = true →
    ∃ t, (s.presenting es).runAll = .next t ∧
      Sys2Proof.core.run es.length s = .next (t.presenting fs)

/-- R97: writing the pieces of a payload one after another leaves the register that writing the whole leaves, the fold
of the whole, and so the same `SUM8`; the counts are the lengths of the pieces, which sum to that of the whole. -/
def Obligations.ChunkedWritesEqualOneWrite : Prop :=
  ∀ (u : AccUnit) (pieces : List (List Byte)) (s : State),
    withinMaxLen s.params.maxLen pieces.flatten.length = true →
    ∃ t t', (s.presenting (pieces.map fun p => commandEvent (u.writeCmd p))).runAll = .next t ∧
      (s.presenting [commandEvent (u.writeCmd pieces.flatten)]).runAll = .next t' ∧
      t.acc u = fold u (s.acc u) pieces.flatten ∧ t'.acc u = t.acc u ∧
      (∃ q q' d, exec u.sum8Cmd t = .next q ∧ q.responses = t.responses ++ [⟨.ok, 0, [d]⟩] ∧
        exec u.sum8Cmd t' = .next q' ∧ q'.responses = t'.responses ++ [⟨.ok, 0, [d]⟩]) ∧
      t.responses = s.responses ++ pieces.map (fun p => ⟨.ok, p.length, []⟩) ∧
      t'.responses = s.responses ++ [⟨.ok, (pieces.map List.length).sum, []⟩]

/-- R98: writing the bytes one at a time leaves the register that writing them at once leaves; an empty `WRITE` changes
nothing and answers count 0. -/
def Obligations.ByteSerialWritesEqualOneWrite : Prop :=
  (∀ (u : AccUnit) (bs : List Byte) (s : State), withinMaxLen s.params.maxLen bs.length = true →
    ∃ t t', (s.presenting (bs.map fun b => commandEvent (u.writeCmd [b]))).runAll = .next t ∧
      (s.presenting [commandEvent (u.writeCmd bs)]).runAll = .next t' ∧ t.acc u = t'.acc u) ∧
  (∀ (u : AccUnit) (s : State),
    exec (u.writeCmd []) s = .next { s with responses := s.responses ++ [⟨.ok, 0, []⟩] })

/-- R121: from 0x00, after any `BCC.WRITE` commands, the register is the XOR of all bytes written, and each of its
bits the parity of that bit over them. -/
def Obligations.BccRegisterIsBitwiseParity : Prop :=
  ∀ (pieces : List (List Byte)) (s : State), s.accBcc = 0x00 →
    (∀ p ∈ pieces, withinMaxLen s.params.maxLen p.length = true) →
    ∃ t, (s.presenting (pieces.map fun p => commandEvent (.bccWrite p))).runAll = .next t ∧
      t.accBcc = pieces.flatten.foldl (fun v b => v ^^^ b) 0x00 ∧
      ∀ i, i < 8 → ((t.accBcc.getLsbD i = true) ↔ (pieces.flatten.countP fun b => b.getLsbD i) % 2 = 1)

/-- R144: from 0x00, after any `LRC.WRITE` commands, the register is the sum of all bytes written mod 256, and
`LRC.SUM8` answers its two's complement, the one byte that brings the sum to 0. -/
def Obligations.LrcDigestIsTheByteThatZeroesTheSum : Prop :=
  ∀ (pieces : List (List Byte)) (s : State), s.accLrc = 0x00 →
    (∀ p ∈ pieces, withinMaxLen s.params.maxLen p.length = true) →
    let total := (pieces.flatten.map BitVec.toNat).sum
    ∃ t t' d, (s.presenting (pieces.map fun p => commandEvent (.lrcWrite p))).runAll = .next t ∧
      t.accLrc.toNat = total % 256 ∧
      exec .lrcSum8 t = .next t' ∧ t'.responses = t.responses ++ [⟨.ok, 0, [d]⟩] ∧
      d.toNat = (256 - total % 256) % 256 ∧ ∀ e : Byte, (total + e.toNat) % 256 = 0 ↔ e = d

/-- R25: two cores whose registers are equal answer every list of events alike. The premise is this hardware's
`UNMARSHAL_FAIL`; the parameters are one machine's (log 4). -/
def Obligations.EqualRegistersAreIndistinguishable : Prop :=
  ∀ s t : State, s.accBcc = t.accBcc → s.accLrc = t.accLrc → s.params = t.params → s.pending = t.pending →
    s.params.unmarshalFail = .preserve → s.hostKeepsBound = true →
    ∃ s' t' rs, s.runAll = .next s' ∧ t.runAll = .next t' ∧ s'.responses = s.responses ++ rs ∧
      t'.responses = t.responses ++ rs ∧ s'.accBcc = t'.accBcc ∧ s'.accLrc = t'.accLrc

/-- R99: the byte `u.MARSHAL` answers, restored by `u.UNMARSHAL` into an accumulator of the same kind in any state,
gives it the same register, and from then on the two answer every list of events of that unit alike. -/
def Obligations.MarshalUnmarshalRoundTrip : Prop :=
  ∀ (u : AccUnit) (s t : State) (es : List Event), s.params = t.params → s.params.unmarshalFail = .preserve →
    (∀ e ∈ es, e.concernsOnly s.params.maxLen u = true) →
    ∃ m s₁ t₁ s₂ t₂ rs, exec u.marshalCmd s = .next s₁ ∧ s₁.responses = s.responses ++ [⟨.ok, 0, [m]⟩] ∧
      exec (u.unmarshalCmd [m]) t = .next t₁ ∧ t₁.acc u = s₁.acc u ∧
      (s₁.presenting es).runAll = .next s₂ ∧ (t₁.presenting es).runAll = .next t₂ ∧
      s₂.responses = s₁.responses ++ rs ∧ t₂.responses = t₁.responses ++ rs ∧ s₂.acc u = t₂.acc u

/-- R100: a message cut in two, marshalled after the first part and resumed from the marshalled byte after a `RESET`
or a hardware reset, gives the `SUM8` of the whole message. -/
def Obligations.CheckpointAndResume : Prop :=
  ∀ (u : AccUnit) (p q : List Byte) (fresh : Event) (s : State), s.acc u = 0x00 →
    withinMaxLen s.params.maxLen (p ++ q).length = true → withinMaxLen s.params.maxLen 1 = true →
    (fresh = .hwReset ∨ fresh = commandEvent u.resetCmd) →
    ∃ m d a b c,
      (s.presenting [commandEvent (u.writeCmd p), commandEvent u.marshalCmd]).runAll = .next a ∧
      a.responses.getLast? = some ⟨.ok, 0, [m]⟩ ∧
      (a.presenting [fresh, commandEvent (u.unmarshalCmd [m]), commandEvent (u.writeCmd q),
          commandEvent u.sum8Cmd]).runAll = .next b ∧
      b.responses.getLast? = some ⟨.ok, 0, [d]⟩ ∧
      (s.presenting [commandEvent (u.writeCmd (p ++ q)), commandEvent u.sum8Cmd]).runAll = .next c ∧
      c.responses.getLast? = some ⟨.ok, 0, [d]⟩

/-- R102: removing all pure reads from what is presented changes no register at any later point and no response of
what remains: the registers at the end, and the response of a last frame after them, are the same. The premise is
this hardware's `UNMARSHAL_FAIL`: under `any` two runs need not find the same byte after a failure (log 5). -/
def Obligations.RemovingReadsChangesNothing : Prop :=
  ∀ (s : State) (es : List Event) (bytes : List Byte), s.params.unmarshalFail = .preserve →
    (s.presenting (es ++ [.frame bytes])).hostKeepsBound = true →
    ∃ t t', (s.presenting (es ++ [.frame bytes])).runAll = .next t ∧
      (s.presenting ((es.filter fun e => !e.isPureRead s.params.maxLen) ++ [.frame bytes])).runAll =
        .next t' ∧
      t.accBcc = t'.accBcc ∧ t.accLrc = t'.accLrc ∧ t.responses.getLast? = t'.responses.getLast?

/-- R164: two lists of events that differ only in extra failing commands (illegal frames and wrong-length `UNMARSHAL`
commands) leave the same registers and give the same responses to all other commands. The premise is this hardware's
`UNMARSHAL_FAIL` (D8). -/
def Obligations.FailingCommandsLeaveNoTrace : Prop :=
  ∀ (s : State) (es : List Event) (bytes : List Byte), s.params.unmarshalFail = .preserve →
    (s.presenting (es ++ [.frame bytes])).hostKeepsBound = true →
    ∃ t t', (s.presenting (es ++ [.frame bytes])).runAll = .next t ∧
      (s.presenting ((es.filter fun e => !e.isFailing s.params.maxLen) ++ [.frame bytes])).runAll =
        .next t' ∧
      t.accBcc = t'.accBcc ∧ t.accLrc = t'.accLrc ∧ t.responses.getLast? = t'.responses.getLast?

/-- R8 (`MAX_LEN < 2^CNT_W`), D20: where an implementation keeps that obligation, the count every `WRITE` a host may
present answers is exact in `CNT_W` bits. -/
def Obligations.CountsFitTheCountWidth : Prop :=
  ∀ (u : AccUnit) (bs : List Byte) (s : State) (w : Nat), s.params.legal = true → s.params.cntW = some w →
    (u.writeCmd bs).wellFormed s.params.maxLen = true →
    ∃ t, exec (u.writeCmd bs) s = .next t ∧ t.responses = s.responses ++ [⟨.ok, bs.length, []⟩] ∧
      bs.length % 2 ^ w = bs.length
end

