-- ==== Sys2Proof/Laws/Operands.lean ====
section
/-! SUPPORT. The pure functions of the units in the arithmetic of bit vectors and of natural numbers, and what the
fold does. -/

namespace Sys2Proof.Machine

@[simp] theorem comb_bcc (v b : Byte) : comb .bcc v b = v ^^^ b := rfl

/-- Addition of bytes wraps at 256, so it is R130's sum. -/
@[simp] theorem comb_lrc (v b : Byte) : comb .lrc v b = v + b := by
  apply BitVec.eq_of_toNat_eq
  simp [comb, Config.modulus]

@[simp] theorem digest_bcc (v : Byte) : digest .bcc v = v := rfl

/-- R131's two's complement is the negation of bytes. -/
@[simp] theorem digest_lrc (v : Byte) : digest .lrc v = -v := by
  apply BitVec.eq_of_toNat_eq
  simp [digest, Config.modulus]

@[simp] theorem fold_nil (u : AccUnit) (v : Byte) : fold u v [] = v := rfl
@[simp] theorem fold_cons (u : AccUnit) (v b : Byte) (bs : List Byte) :
    fold u v (b :: bs) = fold u (comb u v b) bs := rfl

/-- Two bytes folded in, in either order, leave the same value (R120, R142). -/
theorem comb_right_comm (u : AccUnit) (v a b : Byte) : comb u (comb u v a) b = comb u (comb u v b) a := by
  cases u
  · simp [BitVec.xor_assoc, BitVec.xor_comm a b]
  · simp [BitVec.add_assoc, BitVec.add_comm a b]

/-- The fold is the library's left fold of the combining operation. -/
theorem fold_eq_foldl (u : AccUnit) (v : Byte) (bs : List Byte) : fold u v bs = bs.foldl (comb u) v := by
  induction bs generalizing v with
  | nil => rfl
  | cons b bs ih => exact ih _

/-- The LRC fold as a natural number: the whole sum, reduced once (R142). -/
theorem fold_lrc_toNat (v : Byte) (bs : List Byte) :
    (fold .lrc v bs).toNat = (v.toNat + (bs.map BitVec.toNat).sum) % 256 := by
  induction bs generalizing v with
  | nil => simpa using (Nat.mod_eq_of_lt v.isLt).symm
  | cons b bs ih => simp [ih, Nat.add_assoc]

/-- The BCC fold bit by bit. -/
theorem fold_bcc_getLsbD (v : Byte) (bs : List Byte) (i : Nat) :
    (fold .bcc v bs).getLsbD i = bs.foldl (fun p b => p ^^ b.getLsbD i) (v.getLsbD i) := by
  induction bs generalizing v with
  | nil => rfl
  | cons b bs ih => simp [ih]

/-- A byte is its two nibbles, the high one worth 16 (R9). -/
theorem toNat_eq_nibbles (b : Byte) : b.toNat = 16 * (highNibble b).toNat + (lowNibble b).toNat := by
  revert b; decide

/-- Different nibbles have different characters. -/
theorem hexdigit_injective : ∀ j k : Nibble, hexdigit j = hexdigit k → j = k := by decide

@[simp] theorem length_hexDigits (d : Byte) : (hexDigits d).length = 2 := rfl

end Sys2Proof.Machine
end

