-- ==== Sys2Proof/Laws/Asm.lean ====
section
/-! SUPPORT. What the printer and the parser of payload text do. -/

namespace Sys2Proof.Machine

/-- A byte's text is the characters of its two nibbles. -/
theorem byteText_eq (b : Byte) :
    byteText b = [Char.ofNat (hexdigit (highNibble b)).toNat, Char.ofNat (hexdigit (lowNibble b)).toNat] := rfl

/-- A digit's character reads back as its nibble and is none of the characters with a meaning of their own. -/
theorem nibbleChar_spec : ∀ k : Nibble,
    nibbleOfChar (Char.ofNat (hexdigit k).toNat) = some k ∧ Char.ofNat (hexdigit k).toNat ≠ ' ' ∧
      Char.ofNat (hexdigit k).toNat ≠ ';' ∧ Char.ofNat (hexdigit k).toNat ≠ '[' ∧
      Char.ofNat (hexdigit k).toNat ≠ '"' := by
  decide

theorem byteOfWord_byteText (b : Byte) : byteOfWord (byteText b) = some b := by
  rw [byteText_eq]
  simp only [byteOfWord, (nibbleChar_spec _).1]
  congr 1
  apply BitVec.eq_of_toNat_eq
  rw [← toNat_eq_nibbles]
  simp

theorem byteText_ne_nil (b : Byte) : (byteText b != []) = true := by rw [byteText_eq]; rfl

theorem splitSpaces_byteText (b : Byte) : splitSpaces (byteText b) = [byteText b] := by
  simp [byteText_eq, splitSpaces, (nibbleChar_spec _).2.1]

theorem splitSpaces_byteText_space (b : Byte) (cs : List Char) :
    splitSpaces (byteText b ++ ' ' :: cs) = byteText b :: splitSpaces cs := by
  simp [byteText_eq, splitSpaces, (nibbleChar_spec _).2.1]

/-- The words of a list of bytes read back as those bytes. -/
theorem bytesOfWords_bytesText (b : Byte) (bs : List Byte) :
    bytesOfWords ((splitSpaces (bytesText (b :: bs))).filter (· != [])) = some (b :: bs) := by
  induction bs generalizing b with
  | nil => simp only [bytesText, splitSpaces_byteText, List.filter, byteText_ne_nil, bytesOfWords, byteOfWord_byteText]
  | cons c cs ih =>
    have h := ih c
    simp only [bytesText, splitSpaces_byteText_space, List.filter_cons, byteText_ne_nil, if_true, bytesOfWords,
      byteOfWord_byteText, h]

/-- No byte text holds the comment character. -/
theorem takeWhile_bytesText (bs : List Byte) : (bytesText bs).takeWhile (· != ';') = bytesText bs := by
  rw [List.takeWhile_eq_self_iff]
  induction bs with
  | nil => simp [bytesText]
  | cons b bs ih =>
    have hb : ∀ x ∈ byteText b, (x != ';') = true := by
      simp [byteText_eq, (nibbleChar_spec _).2.2.1]
    cases bs with
    | nil => exact hb
    | cons c cs =>
      intro x hx
      simp only [bytesText, List.mem_append, List.mem_cons] at hx
      rcases hx with hx | rfl | hx
      · exact hb x hx
      · decide
      · exact ih x hx

/-- A list of bytes begins with a digit's character. -/
theorem bytesText_head (b : Byte) (bs : List Byte) :
    ∃ (k : Nibble) (r : List Char), bytesText (b :: bs) = Char.ofNat (hexdigit k).toNat :: r := by
  cases bs <;> exact ⟨highNibble b, _, rfl⟩

/-- A payload operand reads back as the payload. -/
theorem payloadOfText_payloadText (s : List Byte) : payloadOfText (' ' :: payloadText s) = some s := by
  cases s with
  | nil => decide
  | cons b bs =>
    obtain ⟨k, r, hk⟩ := bytesText_head b bs
    have hd : List.dropWhile (· == ' ') (' ' :: bytesText (b :: bs)) = bytesText (b :: bs) := by
      simp [hk, (nibbleChar_spec k).2.1]
    simp only [payloadText, reduceCtorEq, if_false, payloadOfText, hd]
    split
    · next h => rw [hk] at h; exact absurd (List.cons.inj h).1 (nibbleChar_spec k).2.2.2.1
    · next h => rw [hk] at h; exact absurd (List.cons.inj h).1 (nibbleChar_spec k).2.2.2.2
    · rw [takeWhile_bytesText, bytesOfWords_bytesText]

end Sys2Proof.Machine
end

