-- ==== Sys2Proof/Laws/Decode.lean ====
section
/-! SUPPORT. What the header fields and the decoder do, once. -/

namespace Sys2Proof

@[simp] theorem rsvField_header (u : AccUnit) (op : Op) : rsvField (header u op) = 0 := by
  cases u <;> cases op <;> rfl

@[simp] theorem unitField_header (u : AccUnit) (op : Op) : unitField (header u op) = u := by
  cases u <;> cases op <;> rfl

@[simp] theorem opOfField_header (u : AccUnit) (op : Op) : opOfField (opField (header u op)) = some op := by
  cases u <;> cases op <;> rfl

/-- A header with no reserved bit is the header of the unit and the operation it selects (R61). -/
theorem header_of_fields : ∀ (h : Byte) (op : Op), rsvField h = 0 → opOfField (opField h) = some op →
    header (unitField h) op = h := by
  intro h op
  cases op <;> revert h <;> decide

/-- The commands of R64 are told apart by unit and operation. -/
theorem commandOf_some {u : AccUnit} {op : Op} {s : List Byte} {i : Instr} (h : commandOf u op s = some i) :
    i.unit = u ∧ i.op = op ∧ i.payload = if op.format = .n then [] else s := by
  cases u <;> cases op <;> simp [commandOf] at h <;> subst h <;> simp [Instr.unit, Instr.op, Instr.payload, Op.format]

/-- Every command is the command of its own unit, operation and payload. -/
theorem commandOf_self (i : Instr) : commandOf i.unit i.op i.payload = some i := by
  cases i <;> rfl

/-- A command of format N has no payload (R62). -/
theorem payload_of_formatN (i : Instr) (h : i.op.format = .n) : i.payload = [] := by
  cases i <;> first | rfl | simp [Instr.op, Op.format] at h

/-- The frame of a command that is too long is refused, any other is that command (R65, R66). -/
theorem decode_header_payload (m : Option Nat) (i : Instr) :
    decode m (header i.unit i.op :: i.payload) =
      if withinMaxLen m i.payload.length then .command i else .refused := by
  have hn : ¬(i.op.format = .n ∧ i.payload ≠ []) := fun h => h.2 (payload_of_formatN i h.1)
  simp [decode, commandOf_self, hn]

/-- A frame that is not illegal is the frame of a command (R65, R67). -/
theorem frame_of_not_illegal {m : Option Nat} {f : List Byte} (h : ∀ r, decode m f ≠ .illegal r) :
    ∃ i : Instr, f = header i.unit i.op :: i.payload := by
  cases f with
  | nil => exact absurd rfl (h .emptyFrame)
  | cons b p =>
    simp only [decode] at h
    split at h
    · exact absurd rfl (h .reservedBits)
    next hr =>
    split at h
    · exact absurd rfl (h .reservedOp)
    next op hop =>
    split at h
    · exact absurd rfl (h .hexSumOnBcc)
    next i hi =>
    split at h
    · exact absurd rfl (h .payloadOnFormatN)
    next hn =>
    obtain ⟨hu, ho, hp⟩ := commandOf_some hi
    have hpay : i.payload = p := by
      by_cases hf : op.format = .n
      · have : p = [] := by simpa [hf] using hn
        simp [hp, hf, this]
      · simp [hp, hf]
    exact ⟨i, by rw [hu, ho, hpay, header_of_fields b op (by simpa using hr) hop]⟩

/-- Everything a verdict `Command` says of its frame (R65). -/
theorem decode_command {m : Option Nat} {f : List Byte} {i : Instr} (h : decode m f = .command i) :
    f = header i.unit i.op :: i.payload ∧ withinMaxLen m i.payload.length = true := by
  obtain ⟨j, rfl⟩ := frame_of_not_illegal (m := m) (f := f) (by simp [h])
  rw [decode_header_payload] at h
  split at h
  · next hw => cases h; exact ⟨rfl, hw⟩
  · cases h

/-- Everything a verdict `Refused` says of its frame (R66). -/
theorem decode_refused {m : Option Nat} {f : List Byte} (h : decode m f = .refused) :
    ∃ i : Instr, f = header i.unit i.op :: i.payload ∧ withinMaxLen m i.payload.length = false := by
  obtain ⟨j, rfl⟩ := frame_of_not_illegal (m := m) (f := f) (by simp [h])
  rw [decode_header_payload] at h
  split at h
  · cases h
  · next hw => exact ⟨j, rfl, by simpa using hw⟩

@[simp] theorem withinMaxLen_none (n : Nat) : withinMaxLen none n = true := rfl

/-- A shorter payload is within the bound when a longer one is. -/
theorem withinMaxLen_mono {m : Option Nat} {a b : Nat} (hab : a ≤ b) (h : withinMaxLen m b = true) :
    withinMaxLen m a = true := by
  cases m with
  | none => rfl
  | some k => simp only [withinMaxLen, decide_eq_true_eq] at h ⊢; exact Nat.le_trans hab h

end Sys2Proof
end

