-- ==== Sys2Proof/Laws/State.lean ====
section
/-! SUPPORT. What each update of the state changes, field by field. -/

namespace Sys2Proof.Machine.State

variable (s : State) (u : AccUnit) (v : Byte) (st : Status) (n : Nat) (d : List Byte) (bytes : List Byte)

/-! ## Reading a register -/

@[simp] theorem acc_bcc : s.acc .bcc = s.accBcc := rfl
@[simp] theorem acc_lrc : s.acc .lrc = s.accLrc := rfl

/-! ## Writing a register -/

@[simp] theorem setAcc_bcc_accBcc : (s.setAcc .bcc v).accBcc = v := rfl
@[simp] theorem setAcc_bcc_accLrc : (s.setAcc .bcc v).accLrc = s.accLrc := rfl
@[simp] theorem setAcc_lrc_accBcc : (s.setAcc .lrc v).accBcc = s.accBcc := rfl
@[simp] theorem setAcc_lrc_accLrc : (s.setAcc .lrc v).accLrc = v := rfl
@[simp] theorem setAcc_pending : (s.setAcc u v).pending = s.pending := by cases u <;> rfl
@[simp] theorem setAcc_responses : (s.setAcc u v).responses = s.responses := by cases u <;> rfl
@[simp] theorem setAcc_params : (s.setAcc u v).params = s.params := by cases u <;> rfl
@[simp] theorem setAcc_draws : (s.setAcc u v).draws = s.draws := by cases u <;> rfl
@[simp] theorem acc_setAcc_same : (s.setAcc u v).acc u = v := by cases u <;> rfl

/-- Writing one unit's register leaves the other's (R22). -/
theorem acc_setAcc_other {u w : AccUnit} (h : w ≠ u) : (s.setAcc u v).acc w = s.acc w := by
  cases u <;> cases w <;> first | rfl | exact absurd rfl h

/-- Writing back what a register holds changes nothing. -/
@[simp] theorem setAcc_acc : s.setAcc u (s.acc u) = s := by cases u <;> rfl

/-- A register is read from the two registers alone, whatever the other fields are made. -/
@[simp] theorem acc_otherFields (ps : List Event) (rs : List Response) (pr : Params) (k : Nat) :
    State.acc ⟨s.accBcc, s.accLrc, ps, rs, pr, k⟩ u = s.acc u := by cases u <;> rfl

/-! ## Answering -/

@[simp] theorem reply_accBcc : (s.reply st n d).accBcc = s.accBcc := rfl
@[simp] theorem reply_accLrc : (s.reply st n d).accLrc = s.accLrc := rfl
@[simp] theorem reply_pending : (s.reply st n d).pending = s.pending := rfl
@[simp] theorem reply_responses : (s.reply st n d).responses = s.responses ++ [⟨st, n, d⟩] := rfl
@[simp] theorem reply_params : (s.reply st n d).params = s.params := rfl
@[simp] theorem reply_draws : (s.reply st n d).draws = s.draws := rfl
@[simp] theorem acc_reply : (s.reply st n d).acc u = s.acc u := by cases u <;> rfl

/-- Raising an error is answering `(st, 0, [])` (R12). -/
theorem raise_eq_reply : s.raise st = s.reply st 0 [] := rfl

/-! ## Hardware reset -/

@[simp] theorem hardwareReset_accBcc : s.hardwareReset.accBcc = 0x00 := rfl
@[simp] theorem hardwareReset_accLrc : s.hardwareReset.accLrc = 0x00 := rfl
@[simp] theorem hardwareReset_pending : s.hardwareReset.pending = s.pending := rfl
@[simp] theorem hardwareReset_responses : s.hardwareReset.responses = s.responses := rfl
@[simp] theorem hardwareReset_params : s.hardwareReset.params = s.params := rfl
@[simp] theorem hardwareReset_draws : s.hardwareReset.draws = s.draws := rfl
@[simp] theorem acc_hardwareReset : s.hardwareReset.acc u = 0x00 := by cases u <;> rfl

/-! ## Presenting a frame -/

@[simp] theorem presentNext_accBcc : (s.presentNext bytes).accBcc = s.accBcc := rfl
@[simp] theorem presentNext_accLrc : (s.presentNext bytes).accLrc = s.accLrc := rfl
@[simp] theorem presentNext_pending : (s.presentNext bytes).pending = .frame bytes :: s.pending := rfl
@[simp] theorem presentNext_responses : (s.presentNext bytes).responses = s.responses := rfl
@[simp] theorem presentNext_params : (s.presentNext bytes).params = s.params := rfl
@[simp] theorem presentNext_draws : (s.presentNext bytes).draws = s.draws := rfl

/-! ## What is yet to be presented -/

variable (es fs : List Event)

@[simp] theorem presenting_accBcc : (s.presenting es).accBcc = s.accBcc := rfl
@[simp] theorem presenting_accLrc : (s.presenting es).accLrc = s.accLrc := rfl
@[simp] theorem presenting_pending : (s.presenting es).pending = es := rfl
@[simp] theorem presenting_responses : (s.presenting es).responses = s.responses := rfl
@[simp] theorem presenting_params : (s.presenting es).params = s.params := rfl
@[simp] theorem presenting_draws : (s.presenting es).draws = s.draws := rfl
@[simp] theorem acc_presenting : (s.presenting es).acc u = s.acc u := by cases u <;> rfl
@[simp] theorem presenting_presenting : (s.presenting es).presenting fs = s.presenting fs := rfl
@[simp] theorem presenting_self : s.presenting s.pending = s := rfl

end Sys2Proof.Machine.State
end

