-- ==== Sys2Proof/Laws/Effect.lean ====
section
/-! SUPPORT. Everything a command can do, said once: what it makes of its unit's register, what it answers, and that
it does nothing else. Later proofs cite `exec_eq` and unfold no meaning. -/

namespace Sys2Proof

open Sys2Proof.Machine

/-- What a command makes of its unit's register when it does not fail. -/
def Instr.after (i : Instr) (v : Byte) : Byte :=
  match i.op, i.payload with
  | .write, bs => fold i.unit v bs
  | .reset, _ => 0x00
  | .unmarshal, [b] => b
  | _, _ => v

/-- What a command answers, given its unit's register (R72). -/
def Instr.answer (i : Instr) (v : Byte) : Response :=
  match i.op with
  | .write => ⟨.ok, i.payload.length, []⟩
  | .blockSize => ⟨.ok, 1, []⟩
  | .digestSize => ⟨.ok, 1, []⟩
  | .sum8 => ⟨.ok, 0, [digest i.unit v]⟩
  | .sum => ⟨.ok, 0, i.payload ++ [digest i.unit v]⟩
  | .reset => ⟨.ok, 0, []⟩
  | .marshal => ⟨.ok, 0, [v]⟩
  | .unmarshal => if i.payload.length = 1 then ⟨.ok, 0, []⟩ else ⟨.invalidLength, 0, []⟩
  | .hexSum => ⟨.ok, 0, i.payload ++ hexDigits (digest i.unit v)⟩

namespace Machine

/-- A failing `UNMARSHAL` answers `InvalidLength` (R160). -/
theorem opUnmarshal_fails {bs : List Byte} (h : bs.length ≠ 1) (u : AccUnit) (s : State) :
    opUnmarshal u bs s = (s.afterFailedUnmarshal u).raise .invalidLength := by
  match bs, h with
  | [], _ => rfl
  | _ :: _ :: _, _ => rfl

/-- The state a command leaves: its unit's register, possibly one free byte drawn, one response, and nothing else. -/
def State.performed (s : State) (i : Instr) : State :=
  { (if i.failsUnmarshal then s.afterFailedUnmarshal i.unit
      else s.setAcc i.unit (i.after (s.acc i.unit))) with
    responses := s.responses ++ [i.answer (s.acc i.unit)] }

@[simp] theorem afterFailedUnmarshal_responses (s : State) (u : AccUnit) :
    (s.afterFailedUnmarshal u).responses = s.responses := by
  unfold State.afterFailedUnmarshal; split <;> simp

theorem opUnmarshal_eq (u : AccUnit) (bs : List Byte) (s : State) :
    opUnmarshal u bs s =
      { (if bs.length = 1 then s.setAcc u (bs.headD 0) else s.afterFailedUnmarshal u) with
        responses := s.responses ++
          [if bs.length = 1 then ⟨.ok, 0, []⟩ else ⟨.invalidLength, 0, []⟩] } := by
  by_cases h : bs.length = 1
  · obtain ⟨b, rfl⟩ := List.length_eq_one_iff.mp h
    simp [opUnmarshal, State.reply]
  · simp [opUnmarshal_fails h, h, State.raise, State.reply]

/-- Everything `exec` does (R90, R93): it always completes. -/
theorem exec_eq (i : Instr) (s : State) : exec i s = .next (s.performed i) := by
  cases i with
  | bccUnmarshal bs =>
    by_cases h : bs.length = 1
    · obtain ⟨b, rfl⟩ := List.length_eq_one_iff.mp h
      rfl
    · simp [exec, execBccUnmarshal, opUnmarshal_fails h, State.performed, Instr.failsUnmarshal, Instr.op, Instr.payload,
        Instr.unit, Instr.answer, h, State.raise, State.reply]
  | lrcUnmarshal bs =>
    by_cases h : bs.length = 1
    · obtain ⟨b, rfl⟩ := List.length_eq_one_iff.mp h
      rfl
    · simp [exec, execLrcUnmarshal, opUnmarshal_fails h, State.performed, Instr.failsUnmarshal, Instr.op, Instr.payload,
        Instr.unit, Instr.answer, h, State.raise, State.reply]
  | _ => rfl

theorem afterFailedUnmarshal_preserve {s : State} (h : s.params.unmarshalFail = .preserve) (u : AccUnit) :
    s.afterFailedUnmarshal u = s := by
  simp [State.afterFailedUnmarshal, h]

theorem afterFailedUnmarshal_any {s : State} (h : s.params.unmarshalFail = .any) (u : AccUnit) :
    s.afterFailedUnmarshal u = { s.setAcc u (Config.freeByte s.draws) with draws := s.draws + 1 } := by
  simp [State.afterFailedUnmarshal, h]

/-- A failing `UNMARSHAL` would set its register to itself. -/
theorem after_of_failsUnmarshal {i : Instr} (h : i.failsUnmarshal = true) (v : Byte) : i.after v = v := by
  simp only [Instr.failsUnmarshal, Bool.and_eq_true, beq_iff_eq, bne_iff_ne, ne_eq] at h
  unfold Instr.after
  split <;> simp_all

/-- Under `preserve` (this hardware) a command's effect is a function of its unit's register alone. -/
theorem performed_preserve {s : State} (h : s.params.unmarshalFail = .preserve) (i : Instr) :
    s.performed i =
      { s.setAcc i.unit (i.after (s.acc i.unit)) with
        responses := s.responses ++ [i.answer (s.acc i.unit)] } := by
  unfold State.performed
  split
  · next hf => simp [afterFailedUnmarshal_preserve h, after_of_failsUnmarshal hf]
  · rfl

@[simp] theorem performed_responses (s : State) (i : Instr) :
    (s.performed i).responses = s.responses ++ [i.answer (s.acc i.unit)] := rfl

@[simp] theorem performed_pending (s : State) (i : Instr) : (s.performed i).pending = s.pending := by
  simp only [State.performed, State.afterFailedUnmarshal]; split <;> [split; skip] <;> simp

@[simp] theorem performed_params (s : State) (i : Instr) : (s.performed i).params = s.params := by
  simp only [State.performed, State.afterFailedUnmarshal]; split <;> [split; skip] <;> simp

/-- A command leaves the other unit's register (R22). -/
theorem performed_acc_other (s : State) (i : Instr) {w : AccUnit} (h : w ≠ i.unit) :
    (s.performed i).acc w = s.acc w := by
  generalize hu : i.unit = u at h
  unfold State.performed State.afterFailedUnmarshal
  rw [hu]
  cases u <;> cases w <;> first | exact absurd rfl h | (split <;> [split; skip] <;> rfl)

/-- A pure read leaves its register (R94). -/
theorem after_of_isPureRead {i : Instr} (h : i.isPureRead = true) (v : Byte) : i.after v = v := by
  cases i <;> first | rfl | simp [Instr.isPureRead, Op.isPureRead, Instr.op] at h

/-- A pure read never fails (R94, R162). -/
theorem not_failsUnmarshal_of_isPureRead {i : Instr} (h : i.isPureRead = true) : i.failsUnmarshal = false := by
  cases i <;> first | rfl | simp [Instr.isPureRead, Op.isPureRead, Instr.op] at h

end Machine

end Sys2Proof
end

