-- ==== Sys2Proof/Laws/PerInstr.lean ====
section
/-! SUPPORT. The family FrameShape: what the frame of each command looks like (spec/30_encoding.md R60, R61, R62). -/

namespace Sys2Proof.Laws.FrameShape

/-- The frame is one byte and the payload, and its header's fields are no reserved bit, the command's unit and the
command's operation. -/
def Statement (i : Instr) : Prop :=
  (encode i).length = 1 + i.payload.length ∧
  ∃ h, encode i = h :: i.payload ∧ rsvField h = 0 ∧ unitField h = i.unit ∧ opOfField (opField h) = some i.op

/-- All of a frame's shape follows from its header. -/
theorem of_header (i : Instr) : Statement i :=
  ⟨by simp [encode, Nat.add_comm], header i.unit i.op, rfl, by simp, by simp, by simp⟩

theorem bccWrite (s : List Byte) : Statement (.bccWrite s) := of_header _
theorem bccBlockSize : Statement .bccBlockSize := of_header _
theorem bccDigestSize : Statement .bccDigestSize := of_header _
theorem bccSum8 : Statement .bccSum8 := of_header _
theorem bccSum (s : List Byte) : Statement (.bccSum s) := of_header _
theorem bccReset : Statement .bccReset := of_header _
theorem bccMarshal : Statement .bccMarshal := of_header _
theorem bccUnmarshal (s : List Byte) : Statement (.bccUnmarshal s) := of_header _
theorem lrcWrite (s : List Byte) : Statement (.lrcWrite s) := of_header _
theorem lrcBlockSize : Statement .lrcBlockSize := of_header _
theorem lrcDigestSize : Statement .lrcDigestSize := of_header _
theorem lrcSum8 : Statement .lrcSum8 := of_header _
theorem lrcSum (s : List Byte) : Statement (.lrcSum s) := of_header _
theorem lrcReset : Statement .lrcReset := of_header _
theorem lrcMarshal : Statement .lrcMarshal := of_header _
theorem lrcUnmarshal (s : List Byte) : Statement (.lrcUnmarshal s) := of_header _
theorem lrcHexSum (s : List Byte) : Statement (.lrcHexSum s) := of_header _

end Sys2Proof.Laws.FrameShape
end

