-- ==== Sys2Proof/Laws/Step.lean ====
section
/-! SUPPORT. What a step can do, said once, and runs over lists of events. -/

namespace Sys2Proof.Machine

variable {s t : State} {rest : List Event}

theorem step_nil (h : s.pending = []) : step s = .next s := by
  simp [step, fetch, h, State.idle]

theorem step_hwReset (h : s.pending = .hwReset :: rest) :
    step s = .next (s.presenting rest).hardwareReset := by
  simp [step, fetch, h]

theorem step_illegal {bytes : List Byte} {r : IllegalReason} (h : s.pending = .frame bytes :: rest)
    (hd : decode s.params.maxLen bytes = .illegal r) :
    step s = .next ((s.presenting rest).raise .illegalCommand) := by
  simp [step, fetch, h, hd]

theorem step_command {bytes : List Byte} {i : Instr} (h : s.pending = .frame bytes :: rest)
    (hd : decode s.params.maxLen bytes = .command i) : step s = exec i (s.presenting rest) := by
  simp [step, fetch, h, hd]

theorem step_refused {bytes : List Byte} (h : s.pending = .frame bytes :: rest)
    (hd : decode s.params.maxLen bytes = .refused) : step s = .refused .payloadTooLong := by
  simp [step, fetch, h, hd]

/-- Everything a step that answers a next state did (R90). -/
theorem step_cases (h : step s = .next t) :
    (s.pending = [] ∧ t = s) ∨
    (∃ rest, s.pending = .hwReset :: rest ∧ t = (s.presenting rest).hardwareReset) ∨
    (∃ bytes r rest, s.pending = .frame bytes :: rest ∧ decode s.params.maxLen bytes = .illegal r ∧
      t = (s.presenting rest).raise .illegalCommand) ∨
    (∃ bytes i rest, s.pending = .frame bytes :: rest ∧ decode s.params.maxLen bytes = .command i ∧
      t = (s.presenting rest).performed i) := by
  cases hp : s.pending with
  | nil => rw [step_nil hp] at h; exact .inl ⟨rfl, by simpa using h.symm⟩
  | cons e rest =>
    cases e with
    | hwReset =>
      rw [step_hwReset hp] at h
      exact .inr (.inl ⟨rest, rfl, by simpa using h.symm⟩)
    | frame bytes =>
      cases hd : decode s.params.maxLen bytes with
      | illegal r =>
        rw [step_illegal hp hd] at h
        exact .inr (.inr (.inl ⟨bytes, r, rest, rfl, hd, by simpa using h.symm⟩))
      | refused => rw [step_refused hp hd] at h; cases h
      | command i =>
        rw [step_command hp hd, exec_eq] at h
        exact .inr (.inr (.inr ⟨bytes, i, rest, rfl, hd, by simpa using h.symm⟩))

/-- What one event the host may present makes of the state (the event itself not yet on the list). -/
def State.undergo (s : State) : Event → State
  | .hwReset => s.hardwareReset
  | .frame bytes =>
    match decode s.params.maxLen bytes with
    | .illegal _ => s.raise .illegalCommand
    | .refused => s
    | .command i => s.performed i

/-- A step over an event within the bound. -/
theorem step_undergo {e : Event} (h : s.pending = e :: rest) (hb : e.withinBound s.params.maxLen = true) :
    step s = .next ((s.presenting rest).undergo e) := by
  cases e with
  | hwReset => exact step_hwReset h
  | frame bytes =>
    cases hd : decode s.params.maxLen bytes with
    | illegal r => simp [step_illegal h hd, State.undergo, hd]
    | refused => simp [Event.withinBound, hd] at hb
    | command i => simp [step_command h hd, State.undergo, hd, exec_eq]

@[simp] theorem undergo_params (s : State) (e : Event) : (s.undergo e).params = s.params := by
  cases e with
  | hwReset => rfl
  | frame bytes => simp only [State.undergo]; split <;> simp [State.raise]

@[simp] theorem undergo_pending (s : State) (e : Event) : (s.undergo e).pending = s.pending := by
  cases e with
  | hwReset => rfl
  | frame bytes => simp only [State.undergo]; split <;> simp [State.raise]

/-- What stands on the list has no part in what a command does. -/
theorem performed_presenting (s : State) (i : Instr) (ps : List Event) :
    (s.presenting ps).performed i = (s.performed i).presenting ps := by
  unfold State.performed State.afterFailedUnmarshal
  simp only [State.acc_presenting, State.presenting_params]
  cases i.unit <;> cases s.params.unmarshalFail <;> cases i.failsUnmarshal <;> rfl

/-- What stands on the list has no part in what an event does (R48). -/
theorem undergo_presenting (s : State) (e : Event) (ps : List Event) :
    (s.presenting ps).undergo e = (s.undergo e).presenting ps := by
  cases e with
  | hwReset => rfl
  | frame bytes =>
    simp only [State.undergo, State.presenting_params]
    cases decode s.params.maxLen bytes with
    | illegal r => rfl
    | refused => rfl
    | command i => exact performed_presenting s i ps

/-- What a list of events makes of the state. -/
def State.undergoAll (s : State) (es : List Event) : State := es.foldl State.undergo s

@[simp] theorem undergoAll_nil (s : State) : s.undergoAll [] = s := rfl
@[simp] theorem undergoAll_cons (s : State) (e : Event) (es : List Event) :
    s.undergoAll (e :: es) = (s.undergo e).undergoAll es := rfl

theorem undergoAll_append (s : State) (es fs : List Event) :
    s.undergoAll (es ++ fs) = (s.undergoAll es).undergoAll fs := by
  simp [State.undergoAll]

@[simp] theorem undergoAll_params (s : State) (es : List Event) : (s.undergoAll es).params = s.params := by
  induction es generalizing s with
  | nil => rfl
  | cons e es ih => simp [ih]

@[simp] theorem undergoAll_pending (s : State) (es : List Event) : (s.undergoAll es).pending = s.pending := by
  induction es generalizing s with
  | nil => rfl
  | cons e es ih => simp [ih]

theorem undergoAll_presenting (s : State) (es ps : List Event) :
    (s.presenting ps).undergoAll es = (s.undergoAll es).presenting ps := by
  induction es generalizing s with
  | nil => rfl
  | cons e es ih => simp only [undergoAll_cons, undergo_presenting, ih]

/-- A run over the first events on the list, when the host keeps the bound (R48, R93, R205). -/
theorem run_undergoAll (es fs : List Event) (s : State) (h : s.pending = es ++ fs)
    (hb : ∀ e ∈ es, e.withinBound s.params.maxLen = true) :
    Sys2Proof.core.run es.length s = .next ((s.undergoAll es).presenting fs) := by
  induction es generalizing s with
  | nil => cases s; cases h; rfl
  | cons e es ih =>
    have hs := step_undergo (s := s) (e := e) (rest := es ++ fs) h (hb e (by simp))
    have hstep : Sys2Proof.core.step s = .next ((s.presenting (es ++ fs)).undergo e) := hs
    simp only [List.length_cons, Host.Core.run, hstep]
    rw [ih _ (by simp) (fun e' he' => by simpa using hb e' (by simp [he']))]
    rw [undergo_presenting, undergoAll_presenting, undergoAll_cons, State.presenting_presenting]

/-- A whole run, when the host keeps the bound. -/
theorem runAll_eq (s : State) (hb : s.hostKeepsBound = true) :
    s.runAll = .next ((s.undergoAll s.pending).presenting []) :=
  run_undergoAll s.pending [] s (by simp) (by simpa [State.hostKeepsBound] using hb)

/-- The frame of a command within the bound does what the command does. -/
theorem undergo_command (s : State) (i : Instr) (h : withinMaxLen s.params.maxLen i.payload.length = true) :
    s.undergo (.frame (header i.unit i.op :: i.payload)) = s.performed i := by
  simp [State.undergo, decode_header_payload, h]

/-- A command within `MAX_LEN` is an event within the bound (R66). -/
theorem commandEvent_withinBound {m : Option Nat} (i : Instr) (h : withinMaxLen m i.payload.length = true) :
    (commandEvent i).withinBound m = true := by
  simp [commandEvent, Event.withinBound, encode, decode_header_payload, h]

/-- What a list of commands makes of the state. -/
def State.performedAll (s : State) (is : List Instr) : State := is.foldl State.performed s

@[simp] theorem performedAll_nil (s : State) : s.performedAll [] = s := rfl
@[simp] theorem performedAll_cons (s : State) (i : Instr) (is : List Instr) :
    s.performedAll (i :: is) = (s.performed i).performedAll is := rfl

/-- Presenting commands within the bound is performing them. -/
theorem undergoAll_commands (is : List Instr) (s : State)
    (h : ∀ i ∈ is, withinMaxLen s.params.maxLen i.payload.length = true) :
    s.undergoAll (is.map commandEvent) = s.performedAll is := by
  induction is generalizing s with
  | nil => rfl
  | cons i is ih =>
    have hi : s.undergo (commandEvent i) = s.performed i := undergo_command s i (h i (by simp))
    rw [List.map_cons, undergoAll_cons, performedAll_cons, hi]
    exact ih _ fun j hj => by simpa using h j (by simp [hj])

/-- A run of commands within the bound. -/
theorem runAll_commands (is : List Instr) (s : State)
    (h : ∀ i ∈ is, withinMaxLen s.params.maxLen i.payload.length = true) :
    (s.presenting (is.map commandEvent)).runAll = .next ((s.performedAll is).presenting []) := by
  rw [runAll_eq, undergoAll_presenting]
  · simp [undergoAll_commands is s h]
  · simp only [State.hostKeepsBound, State.presenting_pending, State.presenting_params, List.all_map, List.all_eq_true]
    exact fun i hi => commandEvent_withinBound i (h i hi)

/-! ## The commands of the shared contract, by unit (R103) -/

section Contract

variable (s : State) (u : AccUnit) (bs : List Byte) (b : Byte)

@[simp] theorem payload_writeCmd : (u.writeCmd bs).payload = bs := by cases u <;> rfl
@[simp] theorem payload_unmarshalCmd : (u.unmarshalCmd bs).payload = bs := by cases u <;> rfl
@[simp] theorem payload_sum8Cmd : u.sum8Cmd.payload = [] := by cases u <;> rfl
@[simp] theorem payload_resetCmd : u.resetCmd.payload = [] := by cases u <;> rfl
@[simp] theorem payload_marshalCmd : u.marshalCmd.payload = [] := by cases u <;> rfl

@[simp] theorem writeCmd_acc : (s.performed (u.writeCmd bs)).acc u = fold u (s.acc u) bs := by cases u <;> rfl
theorem writeCmd_responses : (s.performed (u.writeCmd bs)).responses = s.responses ++ [⟨.ok, bs.length, []⟩] := by
  cases u <;> rfl
@[simp] theorem sum8Cmd_acc : (s.performed u.sum8Cmd).acc u = s.acc u := by cases u <;> rfl
theorem sum8Cmd_responses : (s.performed u.sum8Cmd).responses = s.responses ++ [⟨.ok, 0, [digest u (s.acc u)]⟩] := by
  cases u <;> rfl
@[simp] theorem resetCmd_acc : (s.performed u.resetCmd).acc u = 0x00 := by cases u <;> rfl
theorem resetCmd_responses : (s.performed u.resetCmd).responses = s.responses ++ [⟨.ok, 0, []⟩] := by
  cases u <;> rfl
@[simp] theorem marshalCmd_acc : (s.performed u.marshalCmd).acc u = s.acc u := by cases u <;> rfl
theorem marshalCmd_responses : (s.performed u.marshalCmd).responses = s.responses ++ [⟨.ok, 0, [s.acc u]⟩] := by
  cases u <;> rfl
@[simp] theorem unmarshalCmd_acc : (s.performed (u.unmarshalCmd [b])).acc u = b := by cases u <;> rfl
theorem unmarshalCmd_responses :
    (s.performed (u.unmarshalCmd [b])).responses = s.responses ++ [⟨.ok, 0, []⟩] := by
  cases u <;> rfl

end Contract

/-- An event within the bound is answered once when it is a frame, and not when it is hardware reset (R93, R190). -/
theorem undergo_responses (s : State) (e : Event) (hb : e.withinBound s.params.maxLen = true) :
    ∃ rs, (s.undergo e).responses = s.responses ++ rs ∧ rs.length = if e.isFrame then 1 else 0 := by
  cases e with
  | hwReset => exact ⟨[], by simp [State.undergo], rfl⟩
  | frame bytes =>
    simp only [State.undergo]
    cases hd : decode s.params.maxLen bytes with
    | illegal r => exact ⟨[_], rfl, rfl⟩
    | refused => simp [Event.withinBound, hd] at hb
    | command i => exact ⟨[_], rfl, rfl⟩

/-- An event that concerns only one unit is within the bound. -/
theorem withinBound_of_concernsOnly {m : Option Nat} {u : AccUnit} {e : Event} (h : e.concernsOnly m u = true) :
    e.withinBound m = true := by
  cases e with
  | hwReset => rfl
  | frame bytes =>
    simp only [Event.concernsOnly] at h
    simp only [Event.withinBound, decide_eq_true_eq]
    intro hd
    simp [hd] at h

/-- Under `preserve`, what a command leaves in a register. -/
theorem performed_acc {s : State} (hp : s.params.unmarshalFail = .preserve) (i : Instr) (w : AccUnit) :
    (s.performed i).acc w = if w = i.unit then i.after (s.acc w) else s.acc w := by
  by_cases hw : w = i.unit
  · subst hw; simp [performed_preserve hp]
  · simp [hw, performed_acc_other s i hw]

end Sys2Proof.Machine
end

