-- ==== Sys2Proof/Tests/Slice0.lean ====
section
/-! SUPPORT. Tests from the vectors of spec/95_test_vectors.md and from rules' own examples, the smoke tests of
WellFormed and Decode, and for each statement with premises a witness that meets them all. -/

namespace Sys2Proof.Tests

open Sys2Proof.Machine

/-- A small state: the two registers and what is pending, on this hardware. -/
def st (b l : Byte) (es : List Event := []) : State := ⟨b, l, es, [], Config.defaultParams, 0⟩

/-- The same under `UNMARSHAL_FAIL = any`. -/
def stAny (b l : Byte) : State := ⟨b, l, [], [], ⟨none, none, .any⟩, 0⟩

/-- The same with `MAX_LEN = m` and `CNT_W = w`. -/
def stMax (m w : Nat) (es : List Event) : State := ⟨0, 0, es, [], ⟨some m, some w, .preserve⟩, 0⟩

/-- The registers of a next state. -/
def regs : Host.Outcome State Fault Refusal → Option (Byte × Byte)
  | .next t => some (t.accBcc, t.accLrc)
  | .fault _ => none
  | .refused _ => none

/-- The responses of a next state. -/
def answers : Host.Outcome State Fault Refusal → Option (List Response)
  | .next t => some t.responses
  | .fault _ => none
  | .refused _ => none

/-- The refusal of a step. -/
def refusal : Host.Outcome State Fault Refusal → Option Refusal
  | .next _ => none
  | .fault _ => none
  | .refused r => some r

/-- "Hello, world!" (95_test_vectors.md section 1). -/
def hello : List Byte := [0x48, 0x65, 0x6C, 0x6C, 0x6F, 0x2C, 0x20, 0x77, 0x6F, 0x72, 0x6C, 0x64, 0x21]

/-! ## WellFormed: the one check refuses a payload over the bound (R66) -/

theorem test_wellFormed_refuses_long_write : (Instr.bccWrite [1, 2]).wellFormed (some 1) = false := by decide
theorem test_wellFormed_refuses_long_hexSum : (Instr.lrcHexSum [1]).wellFormed (some 0) = false := by decide
theorem test_wellFormed_accepts_at_bound : (Instr.lrcSum [1, 2]).wellFormed (some 2) = true := by decide
theorem test_wellFormed_formatN_always : Instr.bccReset.wellFormed (some 0) = true := by decide

/-! ## Decode: words written out from R61 and R64, and table V1 -/

theorem test_decode_bcc_words :
    decodeTableWord 8 0b00000000 = some (.bccWrite []) ∧ decodeTableWord 8 0b00000001 = some .bccBlockSize ∧
    decodeTableWord 8 0b00000010 = some .bccDigestSize ∧ decodeTableWord 8 0b00000011 = some .bccSum8 ∧
    decodeTableWord 8 0b00000100 = some (.bccSum []) ∧ decodeTableWord 8 0b00000101 = some .bccReset ∧
    decodeTableWord 8 0b00000110 = some .bccMarshal ∧ decodeTableWord 8 0b00000111 = some (.bccUnmarshal []) := by
  decide

theorem test_decode_lrc_words :
    decodeTableWord 8 0b00010000 = some (.lrcWrite []) ∧ decodeTableWord 8 0b00010001 = some .lrcBlockSize ∧
    decodeTableWord 8 0b00010010 = some .lrcDigestSize ∧ decodeTableWord 8 0b00010011 = some .lrcSum8 ∧
    decodeTableWord 8 0b00010100 = some (.lrcSum []) ∧ decodeTableWord 8 0b00010101 = some .lrcReset ∧
    decodeTableWord 8 0b00010110 = some .lrcMarshal ∧ decodeTableWord 8 0b00010111 = some (.lrcUnmarshal []) ∧
    decodeTableWord 8 0b00011000 = some (.lrcHexSum []) := by
  decide

theorem test_decode_payload_kept_in_order :
    decode none [0x10, 0xFF, 0x02] = .command (.lrcWrite [0xFF, 0x02]) ∧
    decode none [0x14, 0xAA] = .command (.lrcSum [0xAA]) ∧ decode none [0x18, 0x3A] = .command (.lrcHexSum [0x3A]) ∧
    decode none [0x07, 0x4E, 0x4E] = .command (.bccUnmarshal [0x4E, 0x4E]) := by
  decide

theorem test_decode_rejects_by_name :
    decode none [] = .illegal .emptyFrame ∧ decode none [0x30] = .illegal .reservedBits ∧
    decode none [0x09] = .illegal .reservedOp ∧ decode none [0x1F] = .illegal .reservedOp ∧
    decode none [0x08] = .illegal .hexSumOnBcc ∧ decode none [0x05, 0x00] = .illegal .payloadOnFormatN := by
  decide

/-- R65: the tests are made in the order written, so a frame both illegal and too long is illegal. -/
theorem test_decode_illegal_before_refused :
    decode (some 0) [0x05, 0x00] = .illegal .payloadOnFormatN ∧ decode (some 1) [0x00, 1, 2] = .refused := by
  decide

theorem test_encode_words :
    encode (.bccUnmarshal [0x4E]) = [0x07, 0x4E] ∧ encode .lrcMarshal = [0x16] ∧
    encode (.lrcHexSum [0x3A]) = [0x18, 0x3A] := by
  decide

/-! ## Commands: tables V2 to V7 and the source's literals -/

theorem test_bccWrite_nonzero_start : regs (exec (.bccWrite [0x0F, 0xAA]) (st 0xF0 0x33)) = some (0x55, 0x33) := by
  decide
theorem test_bccWrite_hello : regs (exec (.bccWrite hello) (st 0x00 0x55)) = some (0x0D, 0x55) := by decide
theorem test_bccBlockSize : answers (exec .bccBlockSize (st 0xA5 0x3C)) = some [⟨.ok, 1, []⟩] := by decide
theorem test_bccDigestSize : answers (exec .bccDigestSize (st 0xA5 0x3C)) = some [⟨.ok, 1, []⟩] := by decide
theorem test_bccSum8 : answers (exec .bccSum8 (st 0xA5 0x3C)) = some [⟨.ok, 0, [0xA5]⟩] := by decide
theorem test_bccSum_payload_first :
    answers (exec (.bccSum [0x01, 0x02]) (st 0x0D 0x55)) = some [⟨.ok, 0, [0x01, 0x02, 0x0D]⟩] := by decide
theorem test_bccSum_folds_nothing : regs (exec (.bccSum [0xA5, 0xA5]) (st 0xA5 0x3C)) = some (0xA5, 0x3C) := by decide
theorem test_bccReset_one_unit : regs (exec .bccReset (st 0xA5 0x3C)) = some (0x00, 0x3C) := by decide
theorem test_bccMarshal : answers (exec .bccMarshal (st 0x4E 0x3C)) = some [⟨.ok, 0, [0x4E]⟩] := by decide
theorem test_bccUnmarshal_overwrites : regs (exec (.bccUnmarshal [0xFF]) (st 0x12 0x34)) = some (0xFF, 0x34) := by
  decide
theorem test_bccUnmarshal_two_bytes :
    regs (exec (.bccUnmarshal [0x4E, 0x4E]) (st 0x12 0x34)) = some (0x12, 0x34) ∧
    answers (exec (.bccUnmarshal [0x4E, 0x4E]) (st 0x12 0x34)) = some [⟨.invalidLength, 0, []⟩] := by decide
theorem test_lrcWrite_wraps : regs (exec (.lrcWrite [0xFF]) (st 0x77 0xFF)) = some (0x77, 0xFE) := by decide
theorem test_lrcWrite_hello : regs (exec (.lrcWrite hello) (st 0x11 0x00)) = some (0x11, 0x89) := by decide
theorem test_lrcBlockSize : answers (exec .lrcBlockSize (st 0xA5 0x3C)) = some [⟨.ok, 1, []⟩] := by decide
theorem test_lrcDigestSize : answers (exec .lrcDigestSize (st 0xA5 0x3C)) = some [⟨.ok, 1, []⟩] := by decide
theorem test_lrcSum8_hello : answers (exec .lrcSum8 (st 0x00 0x89)) = some [⟨.ok, 0, [0x77]⟩] := by decide
theorem test_lrcSum8_corners :
    answers (exec .lrcSum8 (st 0x00 0x00)) = some [⟨.ok, 0, [0x00]⟩] ∧
    answers (exec .lrcSum8 (st 0x00 0x80)) = some [⟨.ok, 0, [0x80]⟩] := by decide
theorem test_lrcSum : answers (exec (.lrcSum [0xFF, 0x00]) (st 0xA5 0x3C)) = some [⟨.ok, 0, [0xFF, 0x00, 0xC4]⟩] := by
  decide
theorem test_lrcReset_one_unit : regs (exec .lrcReset (st 0xA5 0x3C)) = some (0xA5, 0x00) := by decide
theorem test_lrcMarshal_is_not_the_digest : answers (exec .lrcMarshal (st 0x00 0x89)) = some [⟨.ok, 0, [0x89]⟩] := by
  decide
theorem test_lrcUnmarshal_takes_a_sum : regs (exec (.lrcUnmarshal [0x77]) (st 0x12 0x34)) = some (0x12, 0x77) := by
  decide
theorem test_lrcUnmarshal_empty :
    regs (exec (.lrcUnmarshal []) (st 0x12 0x34)) = some (0x12, 0x34) ∧
    answers (exec (.lrcUnmarshal []) (st 0x12 0x34)) = some [⟨.invalidLength, 0, []⟩] := by decide
theorem test_lrcHexSum_letter_and_leading_zero :
    answers (exec (.lrcHexSum []) (st 0x00 0xF6)) = some [⟨.ok, 0, [0x30, 0x41]⟩] := by decide
theorem test_lrcHexSum_payload_first :
    answers (exec (.lrcHexSum [0x3A]) (st 0x00 0x0E)) = some [⟨.ok, 0, [0x3A, 0x46, 0x32]⟩] := by decide

/-! ## The step: tables V7 and V8 -/

theorem test_step_hwReset : regs (step (st 0xA5 0x3C [.hwReset])) = some (0x00, 0x00) ∧
    answers (step (st 0xA5 0x3C [.hwReset])) = some [] := by decide
theorem test_step_illegal_reset_frame : regs (step (st 0xA5 0x3C [.frame [0x05, 0x00]])) = some (0xA5, 0x3C) ∧
    answers (step (st 0xA5 0x3C [.frame [0x05, 0x00]])) = some [⟨.illegalCommand, 0, []⟩] := by decide
theorem test_step_write_with_bit7 : regs (step (st 0xA5 0x3C [.frame [0x80, 0x48, 0x65]])) = some (0xA5, 0x3C) := by
  decide
theorem test_step_over_maxLen : refusal (step (stMax 1 8 [.frame [0x10, 1, 2]])) = some .payloadTooLong := by decide
theorem test_fetchWord_runs : answers (step (State.reset.withFetchWord 8 0x18)) = some [⟨.ok, 0, [0x30, 0x30]⟩] := by
  decide
theorem test_fetchWord_payload_byte : regs (step (State.reset.withFetchWord 16 0x4E07)) = some (0x4E, 0x00) := by decide

/-! ## Assembler text (R73) -/

theorem test_asm_forms :
    lineOfText "BCC.WRITE 48 65 6C".toList = some (.command (.bccWrite [0x48, 0x65, 0x6C])) ∧
    lineOfText "LRC.WRITE \"Hel\"   ; three bytes".toList = some (.command (.lrcWrite [0x48, 0x65, 0x6C])) ∧
    lineOfText "LRC.HEX_SUM []".toList = some (.command (.lrcHexSum [])) ∧
    lineOfText "HWRESET".toList = some .hwReset := by decide
theorem test_asm_rejects :
    lineOfText "BCC.HEX_SUM []".toList = none ∧ lineOfText "BCC.RESET 00".toList = none ∧
    lineOfText "LRC.SUM".toList = none := by decide
theorem test_asm_response : Response.text ⟨.ok, 0, [0x01, 0x02, 0x0D]⟩ = "-> OK num=0 data=[01 02 0D]".toList ∧
    Response.text ⟨.ok, 13, []⟩ = "-> OK num=13 data=[]".toList := by decide

/-! ## Witnesses: each meets all the premises of its statement, one for each clause that has premises -/

theorem witness_BccCombineIsXorAndDigestIsIdentity : (7 : Nat) < 8 := by decide
theorem witness_UnmarshalRestoresOneByteOrFails :
    (([] : List Byte).length ≠ 1 ∧ (st 1 2).params.unmarshalFail = .preserve) ∧
    (([1, 2] : List Byte).length ≠ 1 ∧ (stAny 1 2).params.unmarshalFail = .any) := by decide
theorem witness_FailedUnmarshalDrawsOneFreeByte :
    ([1, 2] : List Byte).length ≠ 1 ∧ (stAny 1 2).params.unmarshalFail = .any := by decide
theorem witness_CommandsIgnoreTheOtherUnit :
    ((Instr.bccUnmarshal []).unit = .bcc ∧
      exec (.bccUnmarshal []) (st 1 2) = .next ((st 1 2).raise .invalidLength) ∧
      ((st 1 2).params.unmarshalFail = .preserve ∨ (Instr.bccUnmarshal []).failsUnmarshal = false)) ∧
    ((Instr.lrcWrite [3]).unit = .lrc ∧ exec (.lrcWrite [3]) (stAny 1 2) = .next (opWrite .lrc [3] (stAny 1 2)) ∧
      ((stAny 1 2).params.unmarshalFail = .preserve ∨ (Instr.lrcWrite [3]).failsUnmarshal = false)) :=
  ⟨⟨rfl, rfl, .inl rfl⟩, rfl, rfl, .inr rfl⟩
theorem witness_OnlyWrongLengthUnmarshalFails :
    (st 1 2 [.frame []]).pending = .frame [] :: [] ∧ decode (st 1 2).params.maxLen [] = .illegal .emptyFrame := by
  decide
theorem witness_WhatCommandsMayChange_reads :
    (Instr.bccMarshal).op ≠ .write ∧ (Instr.bccMarshal).op ≠ .reset ∧ (Instr.bccMarshal).op ≠ .unmarshal ∧
    exec .bccMarshal (st 1 2) = .next (opMarshal .bcc (st 1 2)) := ⟨by decide, by decide, by decide, rfl⟩
theorem witness_WhatCommandsMayChange_failure :
    exec (.bccUnmarshal []) (st 1 2) = .next ((st 1 2).raise .invalidLength) ∧
    ((st 1 2).raise .invalidLength).responses = (st 1 2).responses ++ [⟨.invalidLength, 0, []⟩] ∧
    Status.invalidLength ≠ .ok := ⟨rfl, rfl, by decide⟩
theorem witness_WhatCommandsMayChange_register :
    (Instr.lrcWrite [3]).op ≠ .sum8 ∧ (Instr.lrcWrite [3]).op ≠ .sum ∧ (Instr.lrcWrite [3]).op ≠ .marshal ∧
    (Instr.lrcWrite [3]).op ≠ .hexSum ∧ exec (.lrcWrite [3]) (st 1 2) = .next (opWrite .lrc [3] (st 1 2)) ∧
    exec (.lrcWrite [3]) { st 1 2 with accBcc := 8, accLrc := 9 } = .next (opWrite .lrc [3] (st 8 9)) :=
  ⟨by decide, by decide, by decide, by decide, rfl, rfl⟩
theorem witness_WhatCommandsMayChange_payload :
    (Instr.bccWrite [3]).unit = (Instr.bccWrite [4]).unit ∧ (Instr.bccWrite [3]).op = (Instr.bccWrite [4]).op ∧
    (Instr.bccWrite [3]).op ≠ .sum ∧ (Instr.bccWrite [3]).op ≠ .hexSum ∧
    (Instr.bccWrite [3]).payload.length = (Instr.bccWrite [4]).payload.length ∧
    exec (.bccWrite [3]) (st 1 2) = .next (opWrite .bcc [3] (st 1 2)) ∧
    exec (.bccWrite [4]) (st 1 2) = .next (opWrite .bcc [4] (st 1 2)) :=
  ⟨rfl, rfl, by decide, by decide, rfl, rfl, rfl⟩
theorem witness_ReadsRepeatAndWhichWritesAreIdempotent : (Instr.lrcHexSum [1]).isPureRead = true := by decide
theorem witness_CommandsToDifferentUnitsCommute :
    (Instr.bccWrite [1]).unit ≠ (Instr.lrcReset).unit ∧ (st 1 2).params.unmarshalFail = .preserve := by decide
theorem witness_FoldFollowsLaws : ([1, 2] : List Byte).Perm [2, 1] := by decide
theorem witness_TwosComplementLaws :
    ((0xFF : Byte) ≠ 0x00) ∧ digest .lrc 0x80 = digest .lrc 0x80 ∧ digest .lrc 0x80 = 0x80 := by decide
theorem witness_HexDigitsDetermineTheDigest : hexDigits 0x0A = hexDigits 0x0A := rfl
theorem witness_StepPerformsTheDecodedCommand :
    ((st 1 2 [.frame [0x10, 3], .hwReset]).pending = .frame [0x10, 3] :: [.hwReset] ∧
      decode (st 1 2).params.maxLen [0x10, 3] = .command (.lrcWrite [3])) ∧
    ((st 1 2 [.frame (encode .bccReset)]).pending = .frame (encode .bccReset) :: [] ∧
      (Instr.bccReset).wellFormed (st 1 2).params.maxLen = true) := by decide
theorem witness_StepAnswersIllegalFrames :
    (st 1 2 [.frame [0x20]]).pending = .frame [0x20] :: [] ∧
    decode (st 1 2).params.maxLen [0x20] = .illegal .reservedBits := by decide
theorem witness_HardwareResetClearsBothRegisters : (st 1 2 [.hwReset]).pending = .hwReset :: [] := by decide
theorem witness_ResetCommandsComparedWithHardwareReset : AccUnit.lrc ≠ .bcc := by decide
theorem witness_StepRefusesExactlyOverlongPayloads :
    step (stMax 1 8 [.frame [0x18, 1, 2]]) = .refused .payloadTooLong ∧
    ((stMax 1 8 [.frame [0x18, 1, 2]]).pending = .frame (0x18 :: [1, 2]) :: [] ∧
      (stMax 1 8 []).params.maxLen = some 1 ∧ 1 < ([1, 2] : List Byte).length ∧
      (0x18 : Byte) ∈ ([0x00, 0x04, 0x07, 0x10, 0x14, 0x17, 0x18] : List Byte)) :=
  ⟨step_refused rfl (by decide), by decide⟩
theorem witness_StatusCodesAsListed :
    ((st 1 2 [.frame [0x07]]).pending = .frame [0x07] :: [] ∧
      step (st 1 2 [.frame [0x07]]) = .next ((st 1 2).raise .invalidLength)) ∧
    ((st 1 2 [.frame [0x09]]).pending = .frame [0x09] :: [] ∧
      step (st 1 2 [.frame [0x09]]) = .next ((st 1 2).raise .illegalCommand)) :=
  ⟨⟨rfl, rfl⟩, rfl, rfl⟩
theorem witness_StepWithNothingPendingChangesNothing : (st 1 2).pending = [] := rfl
theorem witness_ParametersNeverChange :
    step (st 1 2 [.hwReset]) = .next (st 0 0) ∧ (st 1 2).params.unmarshalFail = .preserve := ⟨rfl, rfl⟩
theorem witness_DecodeAndEncodeAreInverse :
    (Instr.lrcSum [1]).wellFormed (some 1) = true ∧ decode (some 1) [0x14, 1] = .command (.lrcSum [1]) := by decide
theorem witness_IllegalFramesAreThoseListed :
    (st 1 2 [.frame [0x16, 0]]).pending = .frame [0x16, 0] :: [] ∧ listedIllegal [0x16, 0] ∧ listedIllegal [] ∧
    listedIllegal [0x08] ∧ listedIllegal [0x09] ∧ listedIllegal [0x0F, 1] ∧ listedIllegal [0x19] ∧
    listedIllegal [0x1F] ∧ listedIllegal [0x20] ∧ listedIllegal [0xFF] :=
  ⟨rfl, .inr ⟨_, _, rfl, by decide⟩, .inl rfl, .inr ⟨_, _, rfl, by decide⟩, .inr ⟨_, _, rfl, by decide⟩,
    .inr ⟨_, _, rfl, by decide⟩, .inr ⟨_, _, rfl, by decide⟩, .inr ⟨_, _, rfl, by decide⟩,
    .inr ⟨_, _, rfl, by decide⟩, .inr ⟨_, _, rfl, by decide⟩⟩
theorem witness_ResponseFormKeptByEveryStep :
    ((st 1 2 [.frame [0x03]]).responsesWellFormed = true ∧
      step (st 1 2 [.frame [0x03]]) = .next (opSum8 .bcc (st 1 2))) := ⟨rfl, rfl⟩
theorem witness_HostKeepsBound :
    (stMax 1 8 [.frame [0x00, 1], .frame [0x03, 0x00], .hwReset]).hostKeepsBound = true := by decide
theorem witness_RegistersAreTheFoldOfTheirHistory :
    (st 3 3 [.frame [0x00, 1], .hwReset]).params.unmarshalFail = .preserve ∧
    (st 3 3 [.frame [0x00, 1], .hwReset]).hostKeepsBound = true ∧
    (st 3 3).accBcc = ([1, 2] : List Byte).foldl (fun v x => v ^^^ x) 0 ∧
    (st 3 3).accLrc.toNat = ((0xFF : Byte).toNat + (([4] : List Byte).map BitVec.toNat).sum) % 256 := by decide
theorem witness_EarlierEventsIgnoreLaterOnes :
    (st 1 2 [.hwReset, .frame [0x03]]).pending = [.hwReset] ++ [.frame [0x03]] ∧
    (st 1 2 [.hwReset, .frame [0x03]]).hostKeepsBound = true := by decide
theorem witness_ChunkedWritesEqualOneWrite :
    withinMaxLen (stMax 3 8 []).params.maxLen ([[1], [], [2, 3]] : List (List Byte)).flatten.length = true := by decide
theorem witness_ByteSerialWritesEqualOneWrite :
    withinMaxLen (stMax 3 8 []).params.maxLen ([1, 2, 3] : List Byte).length = true := by decide
theorem witness_RegisterFromZero :
    (stMax 2 8 []).accBcc = 0x00 ∧ (stMax 2 8 []).accLrc = 0x00 ∧
    ∀ p ∈ ([[1], [2, 3]] : List (List Byte)), withinMaxLen (stMax 2 8 []).params.maxLen p.length = true := by decide
theorem witness_EqualRegistersAreIndistinguishable :
    (st 1 2 [.frame [0x03]]).accBcc = ((st 1 2 [.frame [0x03]]).reply .ok 7 []).accBcc ∧
    (st 1 2 [.frame [0x03]]).accLrc = ((st 1 2 [.frame [0x03]]).reply .ok 7 []).accLrc ∧
    (st 1 2 [.frame [0x03]]).params = ((st 1 2 [.frame [0x03]]).reply .ok 7 []).params ∧
    (st 1 2 [.frame [0x03]]).pending = ((st 1 2 [.frame [0x03]]).reply .ok 7 []).pending ∧
    (st 1 2).params.unmarshalFail = .preserve ∧ (st 1 2 [.frame [0x03]]).hostKeepsBound = true := by decide
theorem witness_MarshalUnmarshalRoundTrip :
    (st 1 2).params = (st 8 9).params ∧ (st 1 2).params.unmarshalFail = .preserve ∧
    ∀ e ∈ [Event.frame [0x10, 1], .frame [0x08], .hwReset],
      e.concernsOnly (st 1 2).params.maxLen .lrc = true := by decide
theorem witness_CheckpointAndResume :
    (stMax 2 8 []).acc .lrc = 0x00 ∧ withinMaxLen (stMax 2 8 []).params.maxLen (([1] : List Byte) ++ [2]).length = true ∧
    withinMaxLen (stMax 2 8 []).params.maxLen 1 = true ∧
    (Event.hwReset = .hwReset ∨ Event.hwReset = commandEvent AccUnit.lrc.resetCmd) := by decide
theorem witness_CheckpointAndResume_byCommand :
    commandEvent AccUnit.bcc.resetCmd = .hwReset ∨
    commandEvent AccUnit.bcc.resetCmd = commandEvent AccUnit.bcc.resetCmd := by decide
theorem witness_RemovingEvents :
    (st 1 2).params.unmarshalFail = .preserve ∧
    ((st 1 2).presenting ([.frame [0x03], .frame [0x07], .frame [0x09]] ++ [.frame [0x13]])).hostKeepsBound = true := by
  decide
theorem witness_CountsFitTheCountWidth :
    (stMax 255 8 []).params.legal = true ∧ (stMax 255 8 []).params.cntW = some 8 ∧
    (AccUnit.bcc.writeCmd [1, 2]).wellFormed (stMax 255 8 []).params.maxLen = true := by decide

end Sys2Proof.Tests
end

section
/-! The parameters of R8: no step changes them, and where they keep R8's obligation every count fits its width. -/

namespace Sys2Proof

/-- Where `MAX_LEN < 2^CNT_W` (R8), a length within `MAX_LEN` is a number of `CNT_W` bits. -/
theorem Params.lt_two_pow_of_legal {p : Params} {w n : Nat} (hlegal : p.legal = true) (hcnt : p.cntW = some w)
    (hn : withinMaxLen p.maxLen n = true) : n < 2 ^ w := by
  cases hmax : p.maxLen with
  | none => simp [Params.legal, hcnt, hmax] at hlegal
  | some m =>
    have hm : m < 2 ^ w := by simpa [Params.legal, hcnt, hmax] using hlegal
    have hnm : n ≤ m := by simpa [withinMaxLen, hmax] using hn
    exact hnm.trans_lt hm

namespace Machine

/-- Under `preserve` no command draws a free byte (U1, log 5). -/
theorem performed_draws_of_preserve {s : State} (h : s.params.unmarshalFail = .preserve) (i : Instr) :
    (s.performed i).draws = s.draws := by
  rw [performed_preserve h]
  exact State.setAcc_draws s i.unit _

/-- No step changes the parameters (R8, log 4). -/
theorem step_params {s t : State} (h : step s = .next t) : t.params = s.params := by
  obtain ⟨-, rfl⟩ | ⟨rest, -, rfl⟩ | ⟨_, _, rest, -, -, rfl⟩ | ⟨_, i, rest, -, -, rfl⟩ := step_cases h
  · rfl
  · simp
  · simp [State.raise_eq_reply]
  · simp

/-- Under `preserve` no step draws a free byte: only a failed `UNMARSHAL` could (U1, log 5). -/
theorem step_draws_of_preserve {s t : State} (hp : s.params.unmarshalFail = .preserve) (h : step s = .next t) :
    t.draws = s.draws := by
  obtain ⟨-, rfl⟩ | ⟨rest, -, rfl⟩ | ⟨_, _, rest, -, -, rfl⟩ | ⟨_, i, rest, -, -, rfl⟩ := step_cases h
  · rfl
  · simp
  · simp [State.raise_eq_reply]
  · exact performed_draws_of_preserve (s := s.presenting rest) hp i

/-- Settles O33, by the cases of a step: none of them writes the parameters, and under `preserve` none draws. -/
theorem parametersNeverChange : Obligations.ParametersNeverChange := by
  intro s t h
  exact ⟨step_params h, fun hp => step_draws_of_preserve hp h⟩

/-- Settles O56: the count is the payload's length, which `MAX_LEN` keeps below `2^CNT_W`. -/
theorem countsFitTheCountWidth : Obligations.CountsFitTheCountWidth := by
  intro u bs s w hlegal hcnt hwf
  have hlen : withinMaxLen s.params.maxLen bs.length = true := by
    simpa [Instr.wellFormed] using hwf
  exact ⟨s.performed (u.writeCmd bs), exec_eq _ s, writeCmd_responses s u bs,
    Nat.mod_eq_of_lt (Params.lt_two_pow_of_legal hlegal hcnt hlen)⟩

end Machine

end Sys2Proof
end

section
/-! The registers (spec/10_state.md): each is the fold of its history, they are all that a command's effect depends
on, and a command touches only its own unit's. -/

namespace Sys2Proof.Machine

/-! ## Each register is the fold of its history (R30) -/

/-- `fold_u(base, H)` of R30. -/
def History.value (u : AccUnit) (h : History) : Byte := fold u h.base h.written

/-- R30's closed form for BCC: the XOR of the start value and every byte written. -/
theorem History.value_bcc (h : History) : h.value .bcc = h.written.foldl (fun v x => v ^^^ x) h.base :=
  fold_eq_foldl .bcc h.base h.written

/-- R30's closed form for LRC: the sum of the start value and every byte written, mod 256. -/
theorem History.value_lrc_toNat (h : History) :
    (h.value .lrc).toNat = (h.base.toNat + (h.written.map BitVec.toNat).sum) % 256 :=
  fold_lrc_toNat h.base h.written

/-- The fold of a concatenation (R91). -/
theorem fold_append (u : AccUnit) (v : Byte) (bs cs : List Byte) :
    fold u v (bs ++ cs) = fold u (fold u v bs) cs := by
  simp only [fold_eq_foldl, List.foldl_append]

/-- The history after a command is the history of what the command leaves in the register. -/
theorem History.value_after (u : AccUnit) (h : History) (i : Instr) :
    (h.after u i).value u = if u = i.unit then i.after (h.value u) else h.value u := by
  by_cases hu : u = i.unit
  · subst hu
    cases i with
    | bccWrite bs => exact fold_append .bcc h.base h.written bs
    | lrcWrite bs => exact fold_append .lrc h.base h.written bs
    | bccUnmarshal bs => match bs with
      | [] | [_] | _ :: _ :: _ => rfl
    | lrcUnmarshal bs => match bs with
      | [] | [_] | _ :: _ :: _ => rfl
    | _ => rfl
  · simp [History.after, hu, Ne.symm hu]

/-- A register that is the fold of its history is so after one more event. -/
theorem undergo_acc_eq_value {s : State} (hp : s.params.unmarshalFail = .preserve) {u : AccUnit} {h : History}
    (hs : s.acc u = h.value u) (e : Event) :
    (s.undergo e).acc u = (h.afterEvent s.params.maxLen u e).value u := by
  cases e with
  | hwReset => exact State.acc_hardwareReset s u
  | frame bytes =>
    simp only [State.undergo, History.afterEvent]
    cases decode s.params.maxLen bytes with
    | illegal r => simpa [State.raise_eq_reply] using hs
    | refused => exact hs
    | command i => simp only [performed_acc hp, History.value_after, hs]

/-- A register that is the fold of its history is so after any further events. -/
theorem undergoAll_acc_eq_value (es : List Event) {s : State} (hp : s.params.unmarshalFail = .preserve)
    {u : AccUnit} {h : History} (hs : s.acc u = h.value u) :
    (s.undergoAll es).acc u = (h.afterAll s.params.maxLen u es).value u := by
  induction es generalizing s h with
  | nil => exact hs
  | cons e es ih => simpa [History.afterAll] using ih (by simpa using hp) (undergo_acc_eq_value hp hs e)

/-- Settles O45: the fold of the history is kept by every event, by induction on the events pending; the statement's
closed forms are that fold. -/
theorem registersAreTheFoldOfTheirHistory : Obligations.RegistersAreTheFoldOfTheirHistory := by
  intro s b l hp hb hbcc hlrc
  have hb0 : s.acc .bcc = b.value .bcc := hbcc.trans b.value_bcc.symm
  have hl0 : s.acc .lrc = l.value .lrc := BitVec.eq_of_toNat_eq (hlrc.trans l.value_lrc_toNat.symm)
  refine ⟨_, runAll_eq s hb, ?_, ?_⟩
  · exact (undergoAll_acc_eq_value s.pending hp hb0).trans (History.value_bcc _)
  · exact (congrArg BitVec.toNat (undergoAll_acc_eq_value s.pending hp hl0)).trans (History.value_lrc_toNat _)

/-! ## The registers are all the state there is (R25) -/

/-- Two states of one machine whose registers are equal; what was answered, drawn or is pending may differ (R25). -/
structure State.Alike (s t : State) : Prop where
  params : s.params = t.params
  acc : ∀ u, s.acc u = t.acc u

/-- An event finds alike states alike: it adds the same responses and leaves them alike. -/
theorem State.Alike.undergo {s t : State} (h : s.Alike t) (hp : s.params.unmarshalFail = .preserve) (e : Event) :
    (s.undergo e).Alike (t.undergo e) ∧
    ∃ rs, (s.undergo e).responses = s.responses ++ rs ∧ (t.undergo e).responses = t.responses ++ rs := by
  have hpt : t.params.unmarshalFail = .preserve := h.params ▸ hp
  refine ⟨⟨by simpa using h.params, fun u => ?_⟩, ?_⟩
  · have hval : ∀ r : State, r.acc u = (History.mk (r.acc u) []).value u := fun _ => rfl
    rw [undergo_acc_eq_value hp (hval s), undergo_acc_eq_value hpt (hval t), h.params, h.acc]
  · cases e with
    | hwReset => exact ⟨[], by simp [State.undergo]⟩
    | frame bytes =>
      simp only [State.undergo, ← h.params]
      cases decode s.params.maxLen bytes with
      | illegal r => exact ⟨_, rfl, rfl⟩
      | refused => exact ⟨[], by simp⟩
      | command i => exact ⟨_, performed_responses s i, by rw [performed_responses, h.acc]⟩

/-- Any list of events finds alike states alike. -/
theorem State.Alike.undergoAll {s t : State} (h : s.Alike t) (hp : s.params.unmarshalFail = .preserve)
    (es : List Event) :
    (s.undergoAll es).Alike (t.undergoAll es) ∧
    ∃ rs, (s.undergoAll es).responses = s.responses ++ rs ∧ (t.undergoAll es).responses = t.responses ++ rs := by
  induction es generalizing s t with
  | nil => exact ⟨h, [], by simp⟩
  | cons e es ih =>
    obtain ⟨he, rs, hs, ht⟩ := h.undergo hp e
    obtain ⟨hes, rs', hs', ht'⟩ := ih he (by simpa using hp)
    exact ⟨hes, rs ++ rs', by simp [hs', hs], by simp [ht', ht]⟩

/-- Settles O51: being alike is kept by every event, each answered the same, by induction on the events pending. -/
theorem equalRegistersAreIndistinguishable : Obligations.EqualRegistersAreIndistinguishable := by
  intro s t hbcc hlrc hpar hpend hp hb
  have halike : s.Alike t := ⟨hpar, fun | .bcc => hbcc | .lrc => hlrc⟩
  obtain ⟨hend, rs, hs, ht⟩ := halike.undergoAll hp s.pending
  have hbt : t.hostKeepsBound = true := by simpa only [State.hostKeepsBound, hpar, hpend] using hb
  have hrun : t.runAll = .next ((t.undergoAll s.pending).presenting []) := hpend ▸ runAll_eq t hbt
  exact ⟨_, _, rs, runAll_eq s hb, hrun, hs, ht, hend.acc .bcc, hend.acc .lrc⟩

/-! ## A command and the other unit's register (R22) -/

/-- What a command leaves where it draws no free byte. -/
theorem performed_of_preserve_or_succeeds {s : State} {i : Instr}
    (h : s.params.unmarshalFail = .preserve ∨ i.failsUnmarshal = false) :
    s.performed i =
      { s.setAcc i.unit (i.after (s.acc i.unit)) with
        responses := s.responses ++ [i.answer (s.acc i.unit)] } := by
  obtain hp | hf := h
  · exact performed_preserve hp i
  · simp [State.performed, hf]

/-- Writing the registers of different units commutes. -/
theorem setAcc_comm {u w : AccUnit} (h : w ≠ u) (s : State) (a b : Byte) :
    (s.setAcc w b).setAcc u a = (s.setAcc u a).setAcc w b := by
  cases u <;> cases w
  · exact absurd rfl h
  · rfl
  · rfl
  · exact absurd rfl h

/-- Answers are no part of writing a register. -/
theorem setAcc_withResponses (s : State) (w : AccUnit) (v : Byte) (rs : List Response) :
    { s with responses := rs }.setAcc w v = { s.setAcc w v with responses := rs } := by
  cases w <;> rfl

/-- The other unit's register has no part in what a command answers (R22). -/
theorem performed_setAcc_other_responses (s : State) {i : Instr} {w : AccUnit} (h : w ≠ i.unit) (v : Byte) :
    ((s.setAcc w v).performed i).responses = (s.performed i).responses := by
  rw [performed_responses, performed_responses, State.setAcc_responses, State.acc_setAcc_other s v h.symm]

/-- The other unit's register has no part in what a command does, where the command draws no free byte (R22). -/
theorem performed_setAcc_other {s : State} {i : Instr} {w : AccUnit} (h : w ≠ i.unit) (v : Byte)
    (hp : s.params.unmarshalFail = .preserve ∨ i.failsUnmarshal = false) :
    (s.setAcc w v).performed i = (s.performed i).setAcc w v := by
  rw [performed_of_preserve_or_succeeds hp, performed_of_preserve_or_succeeds (by simpa using hp),
    State.acc_setAcc_other s v h.symm, setAcc_comm h, State.setAcc_responses]
  exact (setAcc_withResponses _ w v _).symm

/-- R22 for a command of either unit and the other unit `w`. -/
theorem exec_ignores_other {i : Instr} {s t : State} {w : AccUnit} (v : Byte) (h : w ≠ i.unit)
    (ht : exec i s = .next t) :
    t.acc w = s.acc w ∧
    (∃ t', exec i (s.setAcc w v) = .next t' ∧ t'.acc w = v ∧ t'.responses = t.responses) ∧
    (s.params.unmarshalFail = .preserve ∨ i.failsUnmarshal = false →
      exec i (s.setAcc w v) = .next (t.setAcc w v)) := by
  obtain rfl : s.performed i = t := Host.Outcome.next.inj ((exec_eq i s).symm.trans ht)
  refine ⟨performed_acc_other s i h, ⟨_, exec_eq i _, ?_, performed_setAcc_other_responses s h v⟩, fun hp => ?_⟩
  · rw [performed_acc_other _ i h, State.acc_setAcc_same]
  · rw [exec_eq, performed_setAcc_other h v hp]

/-- Settles O13: each clause is R22 for one unit. -/
theorem commandsIgnoreTheOtherUnit : Obligations.CommandsIgnoreTheOtherUnit := by
  constructor
  · intro i s t v hu ht
    exact exec_ignores_other (w := .lrc) v (by simp [hu]) ht
  · intro i s t v hu ht
    exact exec_ignores_other (w := .bcc) v (by simp [hu]) ht

/-! ## The reset state (R28) -/

/-- `SUM8` does nothing but answer the digest of its register (R115, R136). -/
theorem exec_sum8Cmd (u : AccUnit) (s : State) :
    exec u.sum8Cmd s = .next { s with responses := s.responses ++ [⟨.ok, 0, [digest u (s.acc u)]⟩] } := by
  cases u <;> rfl

/-- The digest of 0x00 is 0x00 in both units. -/
theorem digest_zero (u : AccUnit) : digest u 0x00 = 0x00 := by
  cases u <;> rfl

/-- Settles O40: both registers are 0x00, and so are their digests. -/
theorem resetStateHoldsZero : Obligations.ResetStateHoldsZero := by
  refine ⟨rfl, rfl, rfl, rfl, fun u => ?_⟩
  have hacc : State.reset.acc u = 0x00 := by cases u <;> rfl
  rw [exec_sum8Cmd, hacc, digest_zero]

end Sys2Proof.Machine
end

section
/-! Repeating and reordering (spec/20_memory.md R47 to R49): what a command leaves when it comes twice, when two come
in either order, and when more events stand behind it. -/

namespace Sys2Proof.Machine

/-! ## Earlier events and later ones (R48) -/

/-- Settles O46: the events of the first part do the same whatever stands behind them on the list. -/
theorem earlierEventsIgnoreLaterOnes : Obligations.EarlierEventsIgnoreLaterOnes := by
  intro s es fs hsplit hb
  have hes : ∀ e ∈ es, e.withinBound s.params.maxLen = true := fun e he =>
    List.all_eq_true.mp hb e (by simp [hsplit, he])
  refine ⟨(s.undergoAll es).presenting [], ?_, run_undergoAll es fs s hsplit hes⟩
  have hrun : (s.presenting es).runAll = .next (((s.presenting es).undergoAll es).presenting []) :=
    runAll_eq (s.presenting es) (List.all_eq_true.mpr hes)
  rw [hrun, undergoAll_presenting, State.presenting_presenting]

/-! ## Commands to different units (R49) -/

/-- What a command answers after a command to another unit is what it answers without that one. -/
theorem performed_performed_responses (s : State) {i j : Instr} (h : j.unit ≠ i.unit) :
    ((s.performed i).performed j).responses =
      s.responses ++ [i.answer (s.acc i.unit), j.answer (s.acc j.unit)] := by
  rw [performed_responses, performed_responses, performed_acc_other s i h, List.append_assoc, List.singleton_append]

/-- Commands to different units leave the same value in each register in either order (R22, R49). -/
theorem performed_performed_acc_comm {s : State} (hp : s.params.unmarshalFail = .preserve) {i j : Instr}
    (h : i.unit ≠ j.unit) (w : AccUnit) :
    ((s.performed i).performed j).acc w = ((s.performed j).performed i).acc w := by
  have hpi : (s.performed i).params.unmarshalFail = .preserve := by rw [performed_params, hp]
  have hpj : (s.performed j).params.unmarshalFail = .preserve := by rw [performed_params, hp]
  rw [performed_acc hpi, performed_acc hp, performed_acc hpj, performed_acc hp]
  by_cases hi : w = i.unit
  · have hj : w ≠ j.unit := hi ▸ h
    rw [if_neg hj, if_neg hj]
  · rw [if_neg hi, if_neg hi]

/-- Settles O17: each register is one command's alone, and each command's answer reads only its own unit's. -/
theorem commandsToDifferentUnitsCommute : Obligations.CommandsToDifferentUnitsCommute := by
  intro i j s h hp
  have hacc := performed_performed_acc_comm hp h
  exact ⟨s.performed i, s.performed j, (s.performed i).performed j, (s.performed j).performed i, _, _,
    exec_eq i s, exec_eq j _, exec_eq j s, exec_eq i _, hacc .bcc, hacc .lrc,
    performed_performed_responses s h.symm, performed_performed_responses s h⟩

/-! ## The same command twice (R47) -/

/-- A pure read adds its answer and does nothing else (R94). -/
theorem performed_of_isPureRead {i : Instr} (h : i.isPureRead = true) (s : State) :
    s.performed i = { s with responses := s.responses ++ [i.answer (s.acc i.unit)] } := by
  rw [performed_of_preserve_or_succeeds (.inr (not_failsUnmarshal_of_isPureRead h)), after_of_isPureRead h,
    State.setAcc_acc]

/-- A pure read repeats its answer, whatever was answered before. -/
theorem exec_of_isPureRead {i : Instr} (h : i.isPureRead = true) (s : State) (rs : List Response) :
    exec i { s with responses := rs } = .next { s with responses := rs ++ [i.answer (s.acc i.unit)] } := by
  rw [exec_eq, performed_of_isPureRead h, State.acc_otherFields]

/-- A command that always leaves the same value in its unit's register is idempotent on both registers. -/
theorem exec_twice_of_constant {i : Instr} {v : Byte} (h : ∀ s : State, (s.performed i).acc i.unit = v) (s : State) :
    ∃ t t', exec i s = .next t ∧ exec i t = .next t' ∧ t'.accBcc = t.accBcc ∧ t'.accLrc = t.accLrc := by
  have hacc : ∀ w, ((s.performed i).performed i).acc w = (s.performed i).acc w := fun w => by
    by_cases hw : w = i.unit
    · rw [hw, h, h]
    · rw [performed_acc_other _ i hw]
  exact ⟨_, _, exec_eq i s, exec_eq i _, hacc .bcc, hacc .lrc⟩

@[simp] theorem unit_resetCmd (u : AccUnit) : u.resetCmd.unit = u := by cases u <;> rfl
@[simp] theorem unit_unmarshalCmd (u : AccUnit) (bs : List Byte) : (u.unmarshalCmd bs).unit = u := by cases u <;> rfl

/-- A byte combined in after the fold may as well come before it (R120, R142). -/
theorem comb_fold (u : AccUnit) (v b : Byte) (bs : List Byte) : comb u (fold u v bs) b = fold u (comb u v b) bs := by
  induction bs generalizing v with
  | nil => rfl
  | cons c bs ih => rw [fold_cons, fold_cons, ih, comb_right_comm]

/-- Folding the same bytes in twice by XOR is folding none (R120). -/
theorem fold_bcc_twice (v : Byte) (bs : List Byte) : fold .bcc (fold .bcc v bs) bs = v := by
  induction bs generalizing v with
  | nil => rfl
  | cons b bs ih =>
    calc fold .bcc (fold .bcc v (b :: bs)) (b :: bs)
      _ = fold .bcc (fold .bcc (comb .bcc (comb .bcc v b) b) bs) bs := by
        rw [fold_cons, fold_cons, comb_fold]
      _ = comb .bcc (comb .bcc v b) b := ih _
      _ = v := by rw [comb_bcc, comb_bcc, BitVec.xor_assoc, BitVec.xor_self, BitVec.xor_zero]

/-- Folding the same bytes in twice by addition adds their sum twice. -/
theorem fold_lrc_twice_toNat (v : Byte) (bs : List Byte) :
    (fold .lrc (fold .lrc v bs) bs).toNat = (v.toNat + 2 * (bs.map BitVec.toNat).sum) % 256 := by
  rw [← fold_append, fold_lrc_toNat, List.map_append, List.sum_append, two_mul]

/-- `u.WRITE` twice leaves the fold of the fold in its register (R112, R133). -/
theorem exec_writeCmd_twice (u : AccUnit) (bs : List Byte) (s : State) :
    ∃ t t', exec (u.writeCmd bs) s = .next t ∧ exec (u.writeCmd bs) t = .next t' ∧
      t'.acc u = fold u (fold u (s.acc u) bs) bs :=
  ⟨_, _, exec_eq _ s, exec_eq _ _, by rw [writeCmd_acc, writeCmd_acc]⟩

/-- Settles O16, a clause each for the pure reads, `RESET`, `UNMARSHAL` and the two units' `WRITE`. -/
theorem readsRepeatAndWhichWritesAreIdempotent : Obligations.ReadsRepeatAndWhichWritesAreIdempotent := by
  refine ⟨fun i s h => ⟨_, exec_of_isPureRead h s⟩, fun u s => ?_, fun u b s => ?_, fun bs s => ?_, fun bs s => ?_⟩
  · exact exec_twice_of_constant (fun s => by rw [unit_resetCmd, resetCmd_acc]) s
  · exact exec_twice_of_constant (fun s => by rw [unit_unmarshalCmd, unmarshalCmd_acc]) s
  · obtain ⟨t, t', ht, ht', hacc⟩ := exec_writeCmd_twice .bcc bs s
    exact ⟨t, t', ht, ht', hacc.trans (fold_bcc_twice s.accBcc bs)⟩
  · obtain ⟨t, t', ht, ht', hacc⟩ := exec_writeCmd_twice .lrc bs s
    exact ⟨t, t', ht, ht', (congrArg BitVec.toNat hacc).trans (fold_lrc_twice_toNat s.accLrc bs)⟩

end Sys2Proof.Machine
end

section
/-! The encoding (spec/30_encoding.md): frames of commands and illegal frames, responses and their status codes, and
the assembler text. -/

namespace Sys2Proof.Machine

/-! ## Decoding and encoding (R60 to R65) -/

/-- The frame of a command is that command, or refused where it is too long (R65, R66). -/
theorem decode_encode (m : Option Nat) (i : Instr) :
    decode m (encode i) = if i.wellFormed m then .command i else .refused :=
  decode_header_payload m i

/-- Settles O36: every header gives its fields back, and a frame that passes R65's tests is its command's frame. -/
theorem decodeAndEncodeAreInverse : Obligations.DecodeAndEncodeAreInverse := by
  constructor
  · intro m i hi
    rw [decode_encode, if_pos hi]
  · intro m f i h
    obtain ⟨hf, hlen⟩ := decode_command h
    exact ⟨hf.symm, hlen⟩

/-! ## The form of responses (R70) -/

@[simp] theorem wellFormed_ok_num (n : Nat) : (Response.mk .ok n []).wellFormed = true := by
  simp [Response.wellFormed]

@[simp] theorem wellFormed_num_zero (st : Status) : (Response.mk st 0 []).wellFormed = true := by
  simp [Response.wellFormed]

@[simp] theorem wellFormed_ok_data (d : List Byte) : (Response.mk .ok 0 d).wellFormed = true := by
  simp [Response.wellFormed]

/-- Every command's answer has the form of R70: an integer result, a byte result, or a failure. -/
theorem answer_wellFormed (i : Instr) (v : Byte) : (i.answer v).wellFormed = true := by
  unfold Instr.answer
  cases i.op with
  | write | blockSize | digestSize => exact wellFormed_ok_num _
  | sum8 | sum | reset | marshal | hexSum => exact wellFormed_ok_data _
  | unmarshal =>
    dsimp only
    split <;> exact wellFormed_num_zero _

/-- One more response of R70's form keeps that all have it. -/
theorem responsesWellFormed_append {s t : State} {r : Response} (hs : s.responsesWellFormed = true)
    (hr : r.wellFormed = true) (ht : t.responses = s.responses ++ [r]) : t.responsesWellFormed = true := by
  unfold State.responsesWellFormed at hs ⊢
  rw [ht, List.all_append, hs, List.all_cons, hr]
  rfl

/-- Settles O42, by the cases of a step: what it adds, if anything, is an error's response or a command's answer. -/
theorem responseFormKeptByEveryStep : Obligations.ResponseFormKeptByEveryStep := by
  intro s t hs h
  obtain ⟨-, rfl⟩ | ⟨rest, -, rfl⟩ | ⟨_, _, rest, -, -, rfl⟩ | ⟨_, i, rest, -, -, rfl⟩ := step_cases h
  · exact hs
  · exact hs
  · exact responsesWellFormed_append hs (wellFormed_num_zero .illegalCommand) rfl
  · exact responsesWellFormed_append hs (answer_wellFormed i _) (performed_responses _ i)

/-- Settles O41: nothing is answered and nothing pending at reset. -/
theorem resetStateMeetsInvariants : Obligations.ResetStateMeetsInvariants := ⟨rfl, rfl⟩

/-! ## Status codes (R71) -/

/-- A command answers `InvalidLength` when it is an `UNMARSHAL` of a length other than 1, and `OK` otherwise (R162). -/
theorem answer_status (i : Instr) (v : Byte) :
    (i.answer v).status = if i.op = .unmarshal ∧ i.payload.length ≠ 1 then .invalidLength else .ok := by
  unfold Instr.answer
  cases i.op with
  | unmarshal => by_cases hlen : i.payload.length = 1 <;> simp [hlen]
  | _ => rfl

/-- Code 3 is reserved. -/
theorem code_ne_three (st : Status) : st.code ≠ 3 := by
  cases st <;> decide

/-- Everything a step over a frame did, when it answers a next state. -/
theorem step_frame_cases {s t : State} {f : List Byte} {rest : List Event} (hp : s.pending = .frame f :: rest)
    (h : step s = .next t) :
    (∃ r, decode s.params.maxLen f = .illegal r ∧ t = (s.presenting rest).raise .illegalCommand) ∨
    (∃ i, decode s.params.maxLen f = .command i ∧ t = (s.presenting rest).performed i) := by
  cases hd : decode s.params.maxLen f with
  | illegal r => exact .inl ⟨r, rfl, (Host.Outcome.next.inj ((step_illegal hp hd).symm.trans h)).symm⟩
  | refused => cases (step_refused hp hd).symm.trans h
  | command i =>
    rw [step_command hp hd, exec_eq] at h
    exact .inr ⟨i, rfl, (Host.Outcome.next.inj h).symm⟩

/-- Settles O31: the one response added is an illegal frame's or the command's answer. -/
theorem statusCodesAsListed : Obligations.StatusCodesAsListed := by
  intro s t f rest hp h
  obtain ⟨r, hd, rfl⟩ | ⟨i, hd, rfl⟩ := step_frame_cases hp h
  · exact ⟨_, rfl, .inr ⟨r, hd, rfl⟩, code_ne_three _⟩
  · refine ⟨_, performed_responses _ i, .inl ⟨i, hd, ?_⟩, code_ne_three _⟩
    rw [answer_status]
    split <;> rfl

/-! ## The headers (R64) -/

/-- Settles O34: each row of R64's table is the model's `header` computed. -/
theorem headersOfThe17Commands : Obligations.HeadersOfThe17Commands := by
  intro s
  exact ⟨rfl, rfl, rfl, rfl, rfl, rfl, rfl, rfl, rfl, rfl, rfl, rfl, rfl, rfl, rfl, rfl, rfl⟩

/-- Settles O35, by running the decoder on the eight words. -/
theorem writtenOutWordsDecode : Obligations.WrittenOutWordsDecode := by
  unfold Obligations.WrittenOutWordsDecode
  decide

/-- The headers of format P (R62, R64). -/
def formatPHeaders : List Byte := [0x00, 0x04, 0x07, 0x10, 0x14, 0x17, 0x18]

/-- The headers of format N (R62, R64). -/
def formatNHeaders : List Byte := [0x01, 0x02, 0x03, 0x05, 0x06, 0x11, 0x12, 0x13, 0x15, 0x16]

/-- Each header of format P heads a command with any payload. -/
theorem exists_command_of_formatP : ∀ h ∈ formatPHeaders, ∀ p, ∃ i, encode i = h :: p := by
  simp only [formatPHeaders, List.forall_mem_cons]
  exact ⟨fun p => ⟨.bccWrite p, rfl⟩, fun p => ⟨.bccSum p, rfl⟩, fun p => ⟨.bccUnmarshal p, rfl⟩,
    fun p => ⟨.lrcWrite p, rfl⟩, fun p => ⟨.lrcSum p, rfl⟩, fun p => ⟨.lrcUnmarshal p, rfl⟩,
    fun p => ⟨.lrcHexSum p, rfl⟩, List.forall_mem_nil _⟩

/-- Each header of format N is alone the frame of a command. -/
theorem exists_command_of_formatN : ∀ h ∈ formatNHeaders, ∃ i, encode i = [h] := by
  simp only [formatNHeaders, List.forall_mem_cons]
  exact ⟨⟨.bccBlockSize, rfl⟩, ⟨.bccDigestSize, rfl⟩, ⟨.bccSum8, rfl⟩, ⟨.bccReset, rfl⟩, ⟨.bccMarshal, rfl⟩,
    ⟨.lrcBlockSize, rfl⟩, ⟨.lrcDigestSize, rfl⟩, ⟨.lrcSum8, rfl⟩, ⟨.lrcReset, rfl⟩, ⟨.lrcMarshal, rfl⟩,
    List.forall_mem_nil _⟩

/-- A command's header is one of its format's. -/
theorem header_mem (i : Instr) :
    header i.unit i.op ∈ match i.op.format with | .p => formatPHeaders | .n => formatNHeaders := by
  cases i <;> (simp only [Instr.unit, Instr.op, Op.format]; decide)

/-- The frames of commands: a header of format P and any payload, or one of format N alone (R62, R64). -/
theorem exists_encode_eq_cons_iff (h : Byte) (p : List Byte) :
    (∃ i, encode i = h :: p) ↔ h ∈ formatPHeaders ∨ h ∈ formatNHeaders ∧ p = [] := by
  constructor
  · rintro ⟨i, hi⟩
    obtain ⟨rfl, rfl⟩ := List.cons.inj hi
    have hmem := header_mem i
    cases hf : i.op.format with
    | p => exact .inl (by simpa only [hf] using hmem)
    | n => exact .inr ⟨by simpa only [hf] using hmem, payload_of_formatN i hf⟩
  · rintro (hP | ⟨hN, rfl⟩)
    · exact exists_command_of_formatP h hP p
    · exact exists_command_of_formatN h hN

/-! ## Refused frames (R66) -/

/-- A step is refused for nothing but a frame the decoder refuses (R65). -/
theorem step_eq_refused_iff (s : State) (r : Refusal) :
    step s = .refused r ↔ r = .payloadTooLong ∧
      ∃ f rest, s.pending = .frame f :: rest ∧ decode s.params.maxLen f = .refused := by
  constructor
  · intro h
    cases hp : s.pending with
    | nil => cases (step_nil hp).symm.trans h
    | cons e rest =>
      cases e with
      | hwReset => cases (step_hwReset hp).symm.trans h
      | frame f =>
        cases hd : decode s.params.maxLen f with
        | illegal _ => cases (step_illegal hp hd).symm.trans h
        | command i => rw [step_command hp hd, exec_eq] at h; cases h
        | refused =>
          exact ⟨(Host.Outcome.refused.inj ((step_refused hp hd).symm.trans h)).symm, f, rest, rfl, hd⟩
  · rintro ⟨rfl, f, rest, hp, hd⟩
    exact step_refused hp hd

theorem withinMaxLen_eq_false_iff (m : Option Nat) (n : Nat) :
    withinMaxLen m n = false ↔ ∃ k, m = some k ∧ k < n := by
  cases m <;> simp [withinMaxLen]

/-- The refused frames: a header of format P and a payload over the bound (R62, R66). A header of format N with a
payload is illegal, however long. -/
theorem decode_eq_refused_iff (m : Option Nat) (f : List Byte) :
    decode m f = .refused ↔
      ∃ h p k, f = h :: p ∧ m = some k ∧ k < p.length ∧ h ∈ formatPHeaders := by
  constructor
  · intro hd
    obtain ⟨i, rfl, hlen⟩ := decode_refused hd
    obtain ⟨k, hm, hk⟩ := (withinMaxLen_eq_false_iff m _).mp hlen
    refine ⟨_, _, k, rfl, hm, hk, ?_⟩
    obtain hP | ⟨-, hnil⟩ := (exists_encode_eq_cons_iff _ _).mp ⟨i, rfl⟩
    · exact hP
    · simp [hnil] at hk
  · rintro ⟨h, p, k, rfl, rfl, hk, hP⟩
    obtain ⟨i, hi⟩ := exists_command_of_formatP h hP p
    obtain ⟨-, rfl⟩ := List.cons.inj hi
    have hlen : ¬ i.wellFormed (some k) = true := by simpa [Instr.wellFormed, withinMaxLen] using hk
    rw [← hi, decode_encode, if_neg hlen]

/-- Settles O30: the step refuses what the decoder refuses, which is over `MAX_LEN` and of format P. -/
theorem stepRefusesExactlyOverlongPayloads : Obligations.StepRefusesExactlyOverlongPayloads := by
  intro s r
  rw [step_eq_refused_iff]
  refine and_congr_right fun _ => ?_
  constructor
  · rintro ⟨f, rest, hp, hd⟩
    obtain ⟨h, p, k, rfl, hm, hk, hP⟩ := (decode_eq_refused_iff _ _).mp hd
    exact ⟨h, p, rest, k, hp, hm, hk, hP⟩
  · rintro ⟨h, p, rest, k, hp, hm, hk, hP⟩
    exact ⟨h :: p, rest, hp, (decode_eq_refused_iff _ _).mpr ⟨h, p, k, rfl, hm, hk, hP⟩⟩

/-! ## Illegal frames (R67) -/

/-- The illegal frames are those of no command (R65). -/
theorem decode_illegal_iff (m : Option Nat) (f : List Byte) :
    (∃ r, decode m f = .illegal r) ↔ ¬∃ i, encode i = f := by
  constructor
  · rintro ⟨r, hd⟩ ⟨i, rfl⟩
    rw [decode_encode] at hd
    split at hd <;> cases hd
  · intro hno
    by_contra hlegal
    obtain ⟨i, hi⟩ := frame_of_not_illegal (not_exists.mp hlegal)
    exact hno ⟨i, hi.symm⟩

/-- The three header rows of R67's table are the headers of neither format. -/
theorem illegalHeader_iff : ∀ h : Byte,
    (0x20 ≤ h.toNat ∨ (0x09 ≤ h.toNat ∧ h.toNat ≤ 0x0F) ∨ (0x19 ≤ h.toNat ∧ h.toNat ≤ 0x1F) ∨ h = 0x08) ↔
      h ∉ formatPHeaders ∧ h ∉ formatNHeaders := by
  decide

theorem formatN_not_formatP : ∀ h ∈ formatNHeaders, h ∉ formatPHeaders := by decide

/-- R67's table by format: a header of neither format, or one of format N with a payload. -/
theorem listedIllegal_cons_iff (h : Byte) (p : List Byte) :
    listedIllegal (h :: p) ↔
      (h ∉ formatPHeaders ∧ h ∉ formatNHeaders) ∨ (h ∈ formatNHeaders ∧ p ≠ []) := by
  rw [← illegalHeader_iff]
  constructor
  · rintro (hnil | ⟨_, _, heq, hrow⟩)
    · cases hnil
    · obtain ⟨rfl, rfl⟩ := List.cons.inj heq
      simpa only [formatNHeaders, or_assoc] using hrow
  · intro hrow
    exact .inr ⟨h, p, rfl, by simpa only [formatNHeaders, or_assoc] using hrow⟩

/-- R67's table lists the frames of no command. -/
theorem listedIllegal_iff (f : List Byte) : listedIllegal f ↔ ¬∃ i, encode i = f := by
  cases f with
  | nil => exact iff_of_true (.inl rfl) (fun ⟨i, hi⟩ => by cases hi)
  | cons h p =>
    have hNP := formatN_not_formatP h
    rw [listedIllegal_cons_iff, exists_encode_eq_cons_iff]
    tauto

/-- 17 of the 256 header values alone are frames of a command (R67). -/
theorem legal_header_count : ((List.range 256).filter fun h => (decodeTableWord 8 h).isSome).length = 17 :=
  rfl

/-- The headers that are no frame of a command are the others. -/
theorem illegal_header_count : ((List.range 256).filter fun h => (decodeTableWord 8 h).isNone).length = 239 := by
  have hsplit := List.length_eq_length_filter_add (l := List.range 256) fun h => (decodeTableWord 8 h).isSome
  simp only [List.length_range, legal_header_count, Option.not_isSome] at hsplit
  omega

/-- Settles O37: a frame is illegal exactly when it is no command's, and those are the frames of R67's table. -/
theorem illegalFramesAreThoseListed : Obligations.IllegalFramesAreThoseListed := by
  refine ⟨fun m f => (decode_illegal_iff m f).trans (listedIllegal_iff f).symm, ?_, legal_header_count,
    illegal_header_count⟩
  intro s f rest hp hl
  obtain ⟨r, hd⟩ := (decode_illegal_iff s.params.maxLen f).mpr ((listedIllegal_iff f).mp hl)
  exact step_illegal hp hd

/-! ## Assembler text (R73) -/

/-- No name of a command holds a space or a semicolon, so a name ends at the first of them. -/
theorem commandName_chars (u : AccUnit) (op : Op) : ∀ c ∈ commandName u op, (c != ' ' && c != ';') = true := by
  rw [← List.all_eq_true]
  cases u <;> cases op <;> rfl

theorem commandName_ne_hwResetName (u : AccUnit) (op : Op) : commandName u op ≠ hwResetName := by
  cases u <;> cases op <;> decide

/-- Every name finds its own unit and operation. -/
theorem find?_commandName (u : AccUnit) (op : Op) :
    (namedCommands.find? fun p => commandName p.1 p.2 == commandName u op) = some (u, op) := by
  cases u <;> cases op <;> rfl

/-- Before nothing or a space, a command's name is what the parser takes for the name. -/
theorem splitName_commandName (u : AccUnit) (op : Op) (rest : List Char) (hrest : ∀ c ∈ rest.head?, c = ' ') :
    (commandName u op ++ rest).takeWhile (fun c => c != ' ' && c != ';') = commandName u op ∧
    (commandName u op ++ rest).dropWhile (fun c => c != ' ' && c != ';') = rest := by
  rw [List.takeWhile_append_of_pos (commandName_chars u op), List.dropWhile_append_of_pos (commandName_chars u op)]
  cases rest with
  | nil => simp
  | cons c cs =>
    obtain rfl := hrest c rfl
    simp

/-- A name that stands alone is a command of format N. -/
theorem lineOfText_formatN (u : AccUnit) {op : Op} (hf : op.format = .n) :
    lineOfText (commandName u op ++ []) = (commandOf u op []).map .command := by
  obtain ⟨htake, hdrop⟩ := splitName_commandName u op [] (by simp)
  have hend : atLineEnd [] = true := rfl
  simp only [lineOfText, htake, hdrop, commandName_ne_hwResetName, find?_commandName, hf, hend, if_true, if_false]

/-- A name, a space and a payload operand are a command of format P. -/
theorem lineOfText_formatP (u : AccUnit) {op : Op} (hf : op.format = .p) (s : List Byte) :
    lineOfText (commandName u op ++ ' ' :: payloadText s) = (commandOf u op s).map .command := by
  obtain ⟨htake, hdrop⟩ := splitName_commandName u op (' ' :: payloadText s) (by simp)
  simp only [lineOfText, htake, hdrop, commandName_ne_hwResetName, find?_commandName, hf, if_false,
    payloadOfText_payloadText]

/-- A command's text reads back as that command. -/
theorem lineOfText_instrText (i : Instr) : lineOfText (instrText i) = some (.command i) := by
  cases hf : i.op.format with
  | n =>
    have hcmd : commandOf i.unit i.op [] = some i := payload_of_formatN i hf ▸ commandOf_self i
    simp only [instrText, hf]
    rw [lineOfText_formatN i.unit hf, hcmd, Option.map_some]
  | p =>
    simp only [instrText, hf]
    rw [lineOfText_formatP i.unit hf, commandOf_self, Option.map_some]

/-- Settles O39: by `lineOfText_instrText` for commands; `HWRESET` is one fixed text. -/
theorem assemblerTextReadsBack : Obligations.AssemblerTextReadsBack := by
  intro l
  cases l with
  | command i => exact lineOfText_instrText i
  | hwReset => rfl

end Sys2Proof.Machine
end

section
/-! The contract (spec/40_contract.md): a command is one step with one answer, what each class of command may do, what
a run over everything pending does, and which runs end alike. -/

namespace Sys2Proof.Machine

/-! ## A step over a command (R90) -/

/-- Settles O26: by the step over a decoded command, with `decode_encode` for the encoding of a well-formed one. -/
theorem stepPerformsTheDecodedCommand : Obligations.StepPerformsTheDecodedCommand := by
  constructor
  · intro s f rest i hp hd
    exact step_command hp hd
  · intro s rest i hp hwf
    have hd : decode s.params.maxLen (encode i) = .command i := by rw [decode_encode, if_pos hwf]
    exact step_command hp hd

/-! ## Every command completes with one answer (R93, R95, R96, R101) -/

/-- Settles O11: `performed` is the next state and adds one response. -/
theorem everyCommandCompletesWithOneResponse : Obligations.EveryCommandCompletesWithOneResponse := by
  intro i s
  exact ⟨_, _, exec_eq i s, performed_responses s i, performed_pending s i, performed_params s i⟩

/-- Settles O14: the count in the answer `WRITE` adds is the length of its payload (`writeCmd_responses`). -/
theorem writeCountIsPayloadLength : Obligations.WriteCountIsPayloadLength := by
  intro u bs s
  exact ⟨_, exec_eq _ s, writeCmd_responses s u bs⟩

/-- Settles O18: the bytes appended are the digest `SUM8` answers, or its two characters. -/
theorem sumAndHexSumCopyThePayload : Obligations.SumAndHexSumCopyThePayload := by
  intro bs s
  refine ⟨?_, ?_, ?_⟩
  · exact ⟨_, _, digest .bcc s.accBcc, exec_eq _ s, exec_eq _ s, performed_responses s _, performed_responses s _⟩
  · exact ⟨_, _, digest .lrc s.accLrc, exec_eq _ s, exec_eq _ s, performed_responses s _, performed_responses s _⟩
  · exact ⟨_, hexdigit (highNibble (digest .lrc s.accLrc)), hexdigit (lowNibble (digest .lrc s.accLrc)),
      exec_eq _ s, performed_responses s _⟩

/-- Settles O19: `RESET` leaves 0x00, whose digest is 0x00. -/
theorem resetThenSum8AnswersZero : Obligations.ResetThenSum8AnswersZero := by
  intro u s
  refine ⟨_, _, exec_eq _ s, exec_sum8Cmd u _, ?_⟩
  rw [resetCmd_acc, digest_zero]

/-! ## What a class of commands may change and depends on (R94) -/

/-- The next state of a command is the one `performed` names. -/
theorem eq_performed_of_exec {i : Instr} {s t : State} (h : exec i s = .next t) : t = s.performed i :=
  Host.Outcome.next.inj (h.symm.trans (exec_eq i s))

/-- Every operation but `WRITE`, `RESET` and `UNMARSHAL` is a pure read. -/
theorem isPureRead_of_op_ne {i : Instr} (hw : i.op ≠ .write) (hr : i.op ≠ .reset) (hu : i.op ≠ .unmarshal) :
    i.isPureRead = true := by
  unfold Instr.isPureRead
  cases h : i.op with
  | write => exact absurd h hw
  | reset => exact absurd h hr
  | unmarshal => exact absurd h hu
  | blockSize | digestSize | sum8 | sum | marshal | hexSum => rfl

/-- Only `SUM8`, `SUM`, `MARSHAL` and `HEX_SUM` answer by their register. -/
theorem answer_eq_of_op_ne {i : Instr} (h8 : i.op ≠ .sum8) (hs : i.op ≠ .sum) (hm : i.op ≠ .marshal)
    (hx : i.op ≠ .hexSum) (v w : Byte) : i.answer v = i.answer w := by
  unfold Instr.answer
  cases h : i.op with
  | sum8 => exact absurd h h8
  | sum => exact absurd h hs
  | marshal => exact absurd h hm
  | hexSum => exact absurd h hx
  | write | blockSize | digestSize | reset | unmarshal => rfl

/-- Only `SUM` and `HEX_SUM` answer by more of their payload than its length. -/
theorem answer_eq_of_length_eq {i j : Instr} (hu : i.unit = j.unit) (ho : i.op = j.op) (hs : i.op ≠ .sum)
    (hx : i.op ≠ .hexSum) (hlen : i.payload.length = j.payload.length) (v : Byte) : i.answer v = j.answer v := by
  unfold Instr.answer
  rw [← ho, ← hu, ← hlen]
  cases h : i.op with
  | sum => exact absurd h hs
  | hexSum => exact absurd h hx
  | write | blockSize | digestSize | sum8 | reset | marshal | unmarshal => rfl

/-- Settles O15, a clause each for the registers, the statuses, the register's part in the answer and the payload's. -/
theorem whatCommandsMayChangeAndDependOn : Obligations.WhatCommandsMayChangeAndDependOn := by
  refine ⟨?_, ?_, ?_, ?_⟩
  · intro i s t hw hr hu ht
    obtain rfl := eq_performed_of_exec ht
    rw [performed_of_isPureRead (isPureRead_of_op_ne hw hr hu)]
    exact ⟨rfl, rfl⟩
  · intro i s t r ht hresp hstatus
    obtain rfl := eq_performed_of_exec ht
    obtain rfl : i.answer (s.acc i.unit) = r := by simpa using hresp
    by_contra hop
    exact hstatus (by rw [answer_status, if_neg fun h => hop h.1])
  · intro i s t t' a b h8 hs hm hx ht ht'
    obtain rfl := eq_performed_of_exec ht
    obtain rfl := eq_performed_of_exec ht'
    rw [performed_responses, performed_responses, answer_eq_of_op_ne h8 hs hm hx]
  · intro i j s t t' hu ho hs hx hlen ht ht'
    obtain rfl := eq_performed_of_exec ht
    obtain rfl := eq_performed_of_exec ht'
    rw [performed_responses, performed_responses, ← hu, answer_eq_of_length_eq hu ho hs hx hlen]

/-! ## The fold (R91) -/

/-- Settles O21: the equations are the fold's own; the concatenation is `fold_append`. -/
theorem foldOfConcatenation : Obligations.FoldOfConcatenation := by
  intro u v b bs cs
  exact ⟨fold_nil u v, fold_cons u v b bs, fold_append u v bs cs⟩

/-! ## Runs while the host keeps the bound (R93, R205) -/

/-- Settles O43: the event taken off the list is within the bound, and so are those behind it. -/
theorem noStepStopsWhileHostKeepsBound : Obligations.NoStepStopsWhileHostKeepsBound := by
  intro s hb
  cases hp : s.pending with
  | nil => exact ⟨s, step_nil hp, hb⟩
  | cons e rest =>
    have hall : ∀ e' ∈ e :: rest, e'.withinBound s.params.maxLen = true := hp ▸ List.all_eq_true.mp hb
    refine ⟨_, step_undergo hp (hall e List.mem_cons_self), List.all_eq_true.mpr ?_⟩
    rw [undergo_pending, undergo_params]
    exact fun e' he' => hall e' (List.mem_cons_of_mem e he')

/-- Events within the bound are answered once for each frame among them (R93, R190). -/
theorem undergoAll_responses (s : State) (es : List Event) (hb : ∀ e ∈ es, e.withinBound s.params.maxLen = true) :
    ∃ rs, (s.undergoAll es).responses = s.responses ++ rs ∧ rs.length = es.countP Event.isFrame := by
  induction es generalizing s with
  | nil => exact ⟨[], by simp⟩
  | cons e es ih =>
    obtain ⟨rs, hrs, hlen⟩ := undergo_responses s e (hb e List.mem_cons_self)
    obtain ⟨rs', hrs', hlen'⟩ := ih (s.undergo e) fun e' he' => by
      rw [undergo_params]
      exact hb e' (List.mem_cons_of_mem e he')
    refine ⟨rs ++ rs', by rw [undergoAll_cons, hrs', hrs, List.append_assoc], ?_⟩
    rw [List.length_append, hlen, hlen', List.countP_cons, Nat.add_comm]

/-- Settles O44: the run is the events' effect (`runAll_eq`), which answers each frame once. -/
theorem everyRunAnswersEachFrameOnce : Obligations.EveryRunAnswersEachFrameOnce := by
  intro s hb
  exact ⟨_, runAll_eq s hb, rfl, undergoAll_responses s s.pending (List.all_eq_true.mp hb)⟩

/-- The run over events within the bound, presented to any state. -/
theorem runAll_presenting {s : State} {es : List Event} (hb : ∀ e ∈ es, e.withinBound s.params.maxLen = true) :
    (s.presenting es).runAll = .next ((s.undergoAll es).presenting []) := by
  rw [runAll_eq _ (List.all_eq_true.mpr hb), State.presenting_pending, undergoAll_presenting,
    State.presenting_presenting]

/-! ## Writing in pieces (R97, R98) -/

/-- Writing pieces one after another leaves the fold of them all and answers the length of each. -/
theorem performedAll_writes (u : AccUnit) (pieces : List (List Byte)) (s : State) :
    (s.performedAll (pieces.map u.writeCmd)).acc u = fold u (s.acc u) pieces.flatten ∧
    (s.performedAll (pieces.map u.writeCmd)).responses =
      s.responses ++ pieces.map fun p => ⟨.ok, p.length, []⟩ := by
  induction pieces generalizing s with
  | nil => simp
  | cons p ps ih =>
    obtain ⟨hacc, hresp⟩ := ih (s.performed (u.writeCmd p))
    constructor
    · rw [List.map_cons, performedAll_cons, hacc, writeCmd_acc, List.flatten_cons, fold_append]
    · rw [List.map_cons, performedAll_cons, hresp, writeCmd_responses, List.append_assoc, List.map_cons,
        List.singleton_append]

/-- The run of one `WRITE` for each piece, where all together are within the bound. -/
theorem runAll_writes (u : AccUnit) (pieces : List (List Byte)) (s : State)
    (hb : withinMaxLen s.params.maxLen pieces.flatten.length = true) :
    ∃ t, (s.presenting (pieces.map fun p => commandEvent (u.writeCmd p))).runAll = .next t ∧
      t.acc u = fold u (s.acc u) pieces.flatten ∧
      t.responses = s.responses ++ pieces.map fun p => ⟨.ok, p.length, []⟩ := by
  have hpieces : ∀ i ∈ pieces.map u.writeCmd, withinMaxLen s.params.maxLen i.payload.length = true := by
    intro i hi
    obtain ⟨p, hp, rfl⟩ := List.mem_map.mp hi
    rw [payload_writeCmd]
    exact withinMaxLen_mono (List.sublist_flatten_of_mem hp).length_le hb
  have hrun := runAll_commands (pieces.map u.writeCmd) s hpieces
  rw [List.map_map] at hrun
  obtain ⟨hacc, hresp⟩ := performedAll_writes u pieces s
  exact ⟨_, hrun, (State.acc_presenting _ u []).trans hacc, hresp⟩

/-- Settles O47: the whole is one piece, and `runAll_writes` gives both runs the fold of the same bytes. -/
theorem chunkedWritesEqualOneWrite : Obligations.ChunkedWritesEqualOneWrite := by
  intro u pieces s hb
  obtain ⟨t, hrun, hacc, hresp⟩ := runAll_writes u pieces s hb
  obtain ⟨t', hrun', hacc', hresp'⟩ := runAll_writes u [pieces.flatten] s (by simpa using hb)
  have hsame : t'.acc u = t.acc u := by rw [hacc', hacc, List.flatten_singleton]
  refine ⟨t, t', hrun, hrun', hacc, hsame, ?_, hresp, ?_⟩
  · exact ⟨_, _, digest u (t.acc u), exec_sum8Cmd u t, rfl, exec_sum8Cmd u t', by rw [hsame]⟩
  · rw [hresp', List.map_singleton, List.length_flatten]

/-- Settles O48: single bytes are pieces of the payload, and folding no byte leaves the register. -/
theorem byteSerialWritesEqualOneWrite : Obligations.ByteSerialWritesEqualOneWrite := by
  constructor
  · intro u bs s hb
    have hflat : (bs.map fun b => [b]).flatten = bs := by
      rw [← List.flatMap_def, List.flatMap_singleton']
    obtain ⟨t, hrun, hacc, -⟩ := runAll_writes u (bs.map fun b => [b]) s (by rwa [hflat])
    obtain ⟨t', hrun', hacc', -⟩ := runAll_writes u [bs] s (by simpa using hb)
    rw [List.map_map] at hrun
    exact ⟨t, t', hrun, hrun', by rw [hacc, hacc', hflat, List.flatten_singleton]⟩
  · intro u s
    cases u <;> rfl

/-! ## Marshalling and resuming (R99, R100) -/

@[simp] theorem unit_marshalCmd (u : AccUnit) : u.marshalCmd.unit = u := by cases u <;> rfl
@[simp] theorem unit_sum8Cmd (u : AccUnit) : u.sum8Cmd.unit = u := by cases u <;> rfl
@[simp] theorem answer_marshalCmd (u : AccUnit) (v : Byte) : u.marshalCmd.answer v = ⟨.ok, 0, [v]⟩ := by
  cases u <;> rfl
@[simp] theorem answer_sum8Cmd (u : AccUnit) (v : Byte) : u.sum8Cmd.answer v = ⟨.ok, 0, [digest u v]⟩ := by
  cases u <;> rfl

/-- Two states of one machine in which unit `u` holds the same value (R99). -/
structure State.AlikeAt (u : AccUnit) (s t : State) : Prop where
  params : s.params = t.params
  acc : s.acc u = t.acc u

/-- What an event makes of a register depends on that register alone. -/
theorem undergo_acc_congr {u : AccUnit} {s t : State} (h : s.AlikeAt u t)
    (hp : s.params.unmarshalFail = .preserve) (e : Event) : (s.undergo e).acc u = (t.undergo e).acc u := by
  have hval : ∀ r : State, r.acc u = (History.mk (r.acc u) []).value u := fun _ => rfl
  rw [undergo_acc_eq_value hp (hval s), undergo_acc_eq_value (h.params ▸ hp) (hval t), h.params, h.acc]

/-- An event that concerns only unit `u` is answered the same wherever `u` holds the same value (R22). -/
theorem State.AlikeAt.undergo {u : AccUnit} {s t : State} (h : s.AlikeAt u t)
    (hp : s.params.unmarshalFail = .preserve) {e : Event} (he : e.concernsOnly s.params.maxLen u = true) :
    (s.undergo e).AlikeAt u (t.undergo e) ∧
    ∃ rs, (s.undergo e).responses = s.responses ++ rs ∧ (t.undergo e).responses = t.responses ++ rs := by
  refine ⟨⟨by simpa using h.params, undergo_acc_congr h hp e⟩, ?_⟩
  cases e with
  | hwReset => exact ⟨[], by simp [State.undergo]⟩
  | frame bytes =>
    simp only [Event.concernsOnly] at he
    simp only [State.undergo, ← h.params]
    cases hd : decode s.params.maxLen bytes with
    | illegal r => exact ⟨_, rfl, rfl⟩
    | refused => exact ⟨[], by simp⟩
    | command i =>
      obtain rfl : i.unit = u := by simpa [hd] using he
      exact ⟨_, performed_responses s i, by rw [performed_responses, h.acc]⟩

/-- Events that concern only unit `u` are answered the same wherever `u` holds the same value. -/
theorem State.AlikeAt.undergoAll {u : AccUnit} {s t : State} (h : s.AlikeAt u t)
    (hp : s.params.unmarshalFail = .preserve) {es : List Event}
    (hes : ∀ e ∈ es, e.concernsOnly s.params.maxLen u = true) :
    (s.undergoAll es).AlikeAt u (t.undergoAll es) ∧
    ∃ rs, (s.undergoAll es).responses = s.responses ++ rs ∧ (t.undergoAll es).responses = t.responses ++ rs := by
  induction es generalizing s t with
  | nil => exact ⟨h, [], by simp⟩
  | cons e es ih =>
    obtain ⟨he, rs, hs, ht⟩ := h.undergo hp (hes e List.mem_cons_self)
    obtain ⟨hend, rs', hs', ht'⟩ := ih he (by simpa using hp) fun e' he' => by
      simpa using hes e' (List.mem_cons_of_mem e he')
    exact ⟨hend, rs ++ rs', by simp [hs', hs], by simp [ht', ht]⟩

/-- Settles O52: after `UNMARSHAL` the unit holds in both states the byte marshalled, and events that concern only
that unit keep it so. -/
theorem marshalUnmarshalRoundTrip : Obligations.MarshalUnmarshalRoundTrip := by
  intro u s t es hpar hp hes
  have halike : (s.performed u.marshalCmd).AlikeAt u (t.performed (u.unmarshalCmd [s.acc u])) :=
    ⟨by simpa using hpar, by rw [marshalCmd_acc, unmarshalCmd_acc]⟩
  have hes₁ : ∀ e ∈ es, e.concernsOnly (s.performed u.marshalCmd).params.maxLen u = true := by simpa using hes
  obtain ⟨hend, rs, hs, ht⟩ := halike.undergoAll (by simpa using hp) hes₁
  have hb := fun e he => withinBound_of_concernsOnly (hes₁ e he)
  refine ⟨s.acc u, _, _, _, _, rs, exec_eq _ s, marshalCmd_responses s u, exec_eq _ t, halike.acc.symm,
    runAll_presenting hb, runAll_presenting (halike.params ▸ hb), hs, ht, ?_⟩
  rw [State.acc_presenting, State.acc_presenting, hend.acc]

/-- The run of `WRITE` and a command without payload ends with that command's answer to the fold of what was
written. -/
theorem runAll_write_then {u : AccUnit} {i : Instr} (hu : i.unit = u) (hi : i.payload = []) {bs : List Byte} {s : State}
    (hb : withinMaxLen s.params.maxLen bs.length = true) :
    ∃ t, (s.presenting [commandEvent (u.writeCmd bs), commandEvent i]).runAll = .next t ∧ t.params = s.params ∧
      t.responses.getLast? = some (i.answer (fold u (s.acc u) bs)) := by
  have hall : ∀ j ∈ [u.writeCmd bs, i], withinMaxLen s.params.maxLen j.payload.length = true := by
    simp [hi, hb, withinMaxLen_mono (Nat.zero_le _) hb]
  refine ⟨_, runAll_commands [u.writeCmd bs, i] s hall, by simp, ?_⟩
  simp [hu]

/-- The run of a fresh start, `UNMARSHAL [m]`, `WRITE` and `SUM8` ends with the digest of the fold from `m`, whatever
the fresh start is. -/
theorem runAll_resume (u : AccUnit) (m : Byte) {bs : List Byte} {fresh : Event} {s : State}
    (hb : withinMaxLen s.params.maxLen bs.length = true) (hone : withinMaxLen s.params.maxLen 1 = true)
    (hfresh : fresh.withinBound s.params.maxLen = true) :
    ∃ t, (s.presenting [fresh, commandEvent (u.unmarshalCmd [m]), commandEvent (u.writeCmd bs),
        commandEvent u.sum8Cmd]).runAll = .next t ∧
      t.responses.getLast? = some ⟨.ok, 0, [digest u (fold u m bs)]⟩ := by
  have hcmds : ∀ i ∈ [u.unmarshalCmd [m], u.writeCmd bs, u.sum8Cmd],
      withinMaxLen s.params.maxLen i.payload.length = true := by
    simp [hb, hone, withinMaxLen_mono (Nat.zero_le _) hb]
  have hall : ∀ e ∈ fresh :: [u.unmarshalCmd [m], u.writeCmd bs, u.sum8Cmd].map commandEvent,
      e.withinBound s.params.maxLen = true := by
    refine List.forall_mem_cons.mpr ⟨hfresh, List.forall_mem_map.mpr fun i hi => ?_⟩
    exact commandEvent_withinBound i (hcmds i hi)
  have hrun := runAll_presenting hall
  rw [undergoAll_cons, undergoAll_commands _ _ (by rwa [undergo_params])] at hrun
  exact ⟨_, hrun, by simp⟩

/-- Settles O53: `UNMARSHAL` of the marshalled byte puts back the fold of the first part, and folding the second part
into it is the fold of the whole (from any register, not only 0x00). -/
theorem checkpointAndResume : Obligations.CheckpointAndResume := by
  intro u p q fresh s _ hpq hone hfresh
  have hp : withinMaxLen s.params.maxLen p.length = true := withinMaxLen_mono (by simp) hpq
  have hq : withinMaxLen s.params.maxLen q.length = true := withinMaxLen_mono (by simp) hpq
  obtain ⟨a, ha, hpar, hlast⟩ := runAll_write_then (unit_marshalCmd u) (payload_marshalCmd u) hp
  have hstart : fresh.withinBound a.params.maxLen = true := by
    obtain rfl | rfl := hfresh
    · rfl
    · exact commandEvent_withinBound _ (withinMaxLen_mono (by simp) (hpar ▸ hone))
  obtain ⟨b, hrunb, hlastb⟩ := runAll_resume u (fold u (s.acc u) p) (hpar ▸ hq) (hpar ▸ hone) hstart
  obtain ⟨c, hc, -, hlastc⟩ := runAll_write_then (unit_sum8Cmd u) (payload_sum8Cmd u) hpq
  rw [answer_marshalCmd] at hlast
  rw [answer_sum8Cmd, fold_append] at hlastc
  exact ⟨_, _, a, b, c, ha, hlast, hrunb, hlastb, hc, hlastc⟩

/-! ## Leaving events out (R102) -/

theorem State.Alike.trans {r s t : State} (h : r.Alike s) (h' : s.Alike t) : r.Alike t :=
  ⟨h.params.trans h'.params, fun u => (h.acc u).trans (h'.acc u)⟩

/-- Leaving out events that change no register and no parameter leaves states alike. -/
theorem State.Alike.undergoAll_filter {p : Event → Bool} {s t : State} (h : s.Alike t)
    (hp : s.params.unmarshalFail = .preserve)
    (hsilent : ∀ r : State, r.params = s.params → ∀ e, p e = true → (r.undergo e).Alike r) (es : List Event) :
    (s.undergoAll es).Alike (t.undergoAll (es.filter fun e => !p e)) := by
  induction es generalizing s t with
  | nil => exact h
  | cons e es ih =>
    have hsilent' : ∀ r : State, r.params = (s.undergo e).params → ∀ e, p e = true → (r.undergo e).Alike r := by
      simpa using hsilent
    have hp' : (s.undergo e).params.unmarshalFail = .preserve := by simpa using hp
    cases he : p e with
    | true => simpa [he] using ih ((hsilent s rfl e he).trans h) hp' hsilent'
    | false => simpa [he] using ih (h.undergo hp e).1 hp' hsilent'

/-- A frame within the bound gets the same response, the last one given, in alike states. -/
theorem State.Alike.undergo_getLast? {s t : State} (h : s.Alike t) (hp : s.params.unmarshalFail = .preserve)
    {bytes : List Byte} (hb : (Event.frame bytes).withinBound s.params.maxLen = true) :
    (s.undergo (.frame bytes)).responses.getLast? = (t.undergo (.frame bytes)).responses.getLast? := by
  obtain ⟨-, rs, hs, ht⟩ := h.undergo hp (.frame bytes)
  obtain ⟨rs', hs', hlen⟩ := undergo_responses s (.frame bytes) hb
  obtain rfl : rs = rs' := List.append_cancel_left (hs.symm.trans hs')
  have hne : rs ≠ [] := by
    rintro rfl
    cases hlen
  rw [hs, ht, List.getLast?_append_of_ne_nil _ hne, List.getLast?_append_of_ne_nil _ hne]

/-- Leaving out events that change no register and no parameter changes neither the registers at the end nor the
response to a last frame. -/
theorem runAll_filter {p : Event → Bool} {s : State} {es : List Event} {bytes : List Byte}
    (hp : s.params.unmarshalFail = .preserve)
    (hsilent : ∀ r : State, r.params = s.params → ∀ e, p e = true → (r.undergo e).Alike r)
    (hb : (s.presenting (es ++ [.frame bytes])).hostKeepsBound = true) :
    ∃ t t', (s.presenting (es ++ [.frame bytes])).runAll = .next t ∧
      (s.presenting ((es.filter fun e => !p e) ++ [.frame bytes])).runAll = .next t' ∧
      t.accBcc = t'.accBcc ∧ t.accLrc = t'.accLrc ∧ t.responses.getLast? = t'.responses.getLast? := by
  have hall : ∀ e ∈ es ++ [.frame bytes], e.withinBound s.params.maxLen = true := List.all_eq_true.mp hb
  have hsub : ((es.filter fun e => !p e) ++ [Event.frame bytes]).Sublist (es ++ [Event.frame bytes]) :=
    List.filter_sublist.append_right _
  have hbefore : (s.undergoAll es).Alike (s.undergoAll (es.filter fun e => !p e)) :=
    State.Alike.undergoAll_filter ⟨rfl, fun _ => rfl⟩ hp hsilent es
  have hp' : (s.undergoAll es).params.unmarshalFail = .preserve := by rw [undergoAll_params, hp]
  have hend := (hbefore.undergo hp' (.frame bytes)).1
  refine ⟨_, _, runAll_presenting hall, runAll_presenting fun e he => hall e (hsub.subset he), ?_⟩
  simp only [undergoAll_append, undergoAll_cons, undergoAll_nil]
  exact ⟨hend.acc .bcc, hend.acc .lrc,
    hbefore.undergo_getLast? hp' (by rw [undergoAll_params]; exact hall _ (by simp))⟩

/-- A pure read leaves the registers and the parameters (R94). -/
theorem undergo_alike_of_isPureRead {s : State} {e : Event} (h : e.isPureRead s.params.maxLen = true) :
    (s.undergo e).Alike s := by
  cases e with
  | hwReset => cases h
  | frame bytes =>
    simp only [Event.isPureRead] at h
    simp only [State.undergo]
    cases hd : decode s.params.maxLen bytes with
    | illegal r => simp [hd] at h
    | refused => exact ⟨rfl, fun _ => rfl⟩
    | command i =>
      have hread : i.isPureRead = true := by simpa [hd] using h
      simp only [performed_of_isPureRead hread]
      exact ⟨rfl, fun u => State.acc_otherFields s u _ _ _ _⟩

/-- Settles O54: a pure read leaves the state alike, so leaving all of them out does (`runAll_filter`). -/
theorem removingReadsChangesNothing : Obligations.RemovingReadsChangesNothing := by
  intro s es bytes hp hb
  exact runAll_filter hp (fun r hr e he => undergo_alike_of_isPureRead (hr ▸ he)) hb

end Sys2Proof.Machine
end

section
/-! The BCC unit (spec/41_bcc.md): what each of its commands does, the laws of its XOR, and what the register holds
after any number of writes. A fact that both units share is stated once, over a unit (R103). -/

namespace Sys2Proof.Machine

/-! ## The combining operation and the digest (R110, R111, R120) -/

/-- Settles O1: the bits of an XOR are the XOR of the bits, and that is being different. -/
theorem bccCombineIsXorAndDigestIsIdentity : Obligations.BccCombineIsXorAndDigestIsIdentity := by
  refine ⟨fun v b i _ => ?_, digest_bcc⟩
  rw [comb_bcc, BitVec.getLsbD_xor, Bool.xor_iff_ne]

theorem comb_comm (u : AccUnit) (a b : Byte) : comb u a b = comb u b a := by
  cases u with
  | bcc => exact BitVec.xor_comm a b
  | lrc => rw [comb_lrc, comb_lrc, BitVec.add_comm]

theorem zero_comb (u : AccUnit) (v : Byte) : comb u 0x00 v = v := by
  cases u with
  | bcc => exact BitVec.zero_xor
  | lrc => exact (comb_lrc 0x00 v).trans (zero_add v)

/-- The digest is the inverse of the register under the combining operation (R122, R145). -/
theorem comb_digest (u : AccUnit) (v : Byte) : comb u v (digest u v) = 0x00 := by
  cases u with
  | bcc => exact BitVec.xor_self
  | lrc =>
    rw [comb_lrc, digest_lrc]
    exact BitVec.add_right_neg v

/-! ## The fold (R120) -/

/-- The fold does not depend on the order of the bytes. -/
theorem fold_perm (u : AccUnit) (v : Byte) {bs cs : List Byte} (h : bs.Perm cs) : fold u v bs = fold u v cs := by
  rw [fold_eq_foldl, fold_eq_foldl]
  exact h.foldl_eq' (fun a _ b _ w => comb_right_comm u w a b) v

/-- The start value factors out of the fold. -/
theorem fold_eq_comb_fold_zero (u : AccUnit) (v : Byte) (bs : List Byte) :
    fold u v bs = comb u v (fold u 0x00 bs) :=
  calc fold u v bs
    _ = fold u (comb u 0x00 v) bs := by rw [zero_comb]
    _ = comb u (fold u 0x00 bs) v := (comb_fold u 0x00 v bs).symm
    _ = comb u v (fold u 0x00 bs) := comb_comm u _ v

/-- Settles O22: the laws are the library's of XOR, and each gives the fold its own. -/
theorem bccFoldFollowsXorLaws : Obligations.BccFoldFollowsXorLaws := by
  refine ⟨fun a b c => ⟨comb_comm .bcc a b, ?_, ?_, ?_, ?_⟩, fun v bs cs => fold_perm .bcc v, fold_bcc_twice,
    fold_eq_comb_fold_zero .bcc⟩
  · exact BitVec.xor_assoc a b c
  · exact BitVec.xor_zero
  · exact BitVec.xor_self
  · exact BitVec.xor_allOnes

/-- The BCC fold is R112's XOR of the register with every byte in order. -/
theorem fold_bcc_eq_foldl_xor (v : Byte) (bs : List Byte) : fold .bcc v bs = bs.foldl (fun v b => v ^^^ b) v :=
  fold_eq_foldl .bcc v bs

/-- XORing a property of every element into a bit counts, mod 2, the elements that have it. -/
theorem foldl_xor_iff_countP_odd {α : Type} (f : α → Bool) (p : Bool) (xs : List α) :
    xs.foldl (fun p x => p ^^ f x) p = true ↔ (p.toNat + xs.countP f) % 2 = 1 := by
  induction xs generalizing p with
  | nil => cases p <;> simp
  | cons x xs ih =>
    rw [List.foldl_cons, ih, List.countP_cons]
    have hbit : (p ^^ f x).toNat % 2 = (p.toNat + if f x then 1 else 0) % 2 := by
      cases p <;> cases f x <;> rfl
    omega

/-- From 0x00, each bit of the BCC fold is the parity of that bit over the bytes folded in (R121). -/
theorem fold_bcc_zero_getLsbD_iff (bs : List Byte) (i : Nat) :
    (fold .bcc 0x00 bs).getLsbD i = true ↔ (bs.countP fun b => b.getLsbD i) % 2 = 1 := by
  have hstart : (0x00 : Byte).getLsbD i = false := BitVec.getLsbD_zero
  rw [fold_bcc_getLsbD, foldl_xor_iff_countP_odd, hstart, Bool.toNat_false, Nat.zero_add]

/-! ## The commands -/

/-- `u.WRITE` folds its payload into its register and answers the length (R112, R133). -/
theorem exec_writeCmd (u : AccUnit) (bs : List Byte) (s : State) :
    exec (u.writeCmd bs) s = .next ((s.setAcc u (fold u (s.acc u) bs)).reply .ok bs.length []) := by
  cases u <;> rfl

/-- Settles O2: the fold that `WRITE` leaves is the XOR of all the bytes. -/
theorem bccWriteXorsEveryByte : Obligations.BccWriteXorsEveryByte := by
  intro bs s
  rw [← fold_bcc_eq_foldl_xor]
  exact exec_writeCmd .bcc bs s

/-- A pure read answers and does nothing else (R94). -/
theorem exec_eq_of_isPureRead {i : Instr} (h : i.isPureRead = true) (s : State) :
    exec i s = .next { s with responses := s.responses ++ [i.answer (s.acc i.unit)] } :=
  exec_of_isPureRead h s s.responses

/-- Settles O4: the size commands are pure reads, and what they answer is 1. -/
theorem sizeCommandsAnswerOne : Obligations.SizeCommandsAnswerOne := by
  intro s
  exact ⟨exec_eq_of_isPureRead rfl s, exec_eq_of_isPureRead rfl s, exec_eq_of_isPureRead rfl s,
    exec_eq_of_isPureRead rfl s⟩

/-- Settles O5: the three are pure reads, and the BCC digest is the register. -/
theorem bccReadsReportTheRegister : Obligations.BccReadsReportTheRegister := by
  intro bs s
  exact ⟨exec_eq_of_isPureRead rfl s, exec_eq_of_isPureRead rfl s, exec_eq_of_isPureRead rfl s⟩

/-- `u.RESET` sets its register to 0x00 (R117, R138). -/
theorem exec_resetCmd (u : AccUnit) (s : State) : exec u.resetCmd s = .next ((s.setAcc u 0x00).reply .ok 0 []) := by
  cases u <;> rfl

/-- Settles O8, by what `RESET` does over either unit. -/
theorem resetCommandsClearOwnRegister : Obligations.ResetCommandsClearOwnRegister := by
  intro s
  exact ⟨exec_resetCmd .bcc s, exec_resetCmd .lrc s⟩

/-- `u.UNMARSHAL` of one byte sets its register to that byte (R119, R140). -/
theorem exec_unmarshalCmd_singleton (u : AccUnit) (b : Byte) (s : State) :
    exec (u.unmarshalCmd [b]) s = .next ((s.setAcc u b).reply .ok 0 []) := by
  cases u <;> rfl

/-- `u.UNMARSHAL` of any other length answers `InvalidLength` (R160). -/
theorem exec_unmarshalCmd_fails {bs : List Byte} (h : bs.length ≠ 1) (u : AccUnit) (s : State) :
    exec (u.unmarshalCmd bs) s = .next ((s.afterFailedUnmarshal u).reply .invalidLength 0 []) := by
  cases u with
  | bcc => exact congrArg Host.Outcome.next (opUnmarshal_fails h .bcc s)
  | lrc => exact congrArg Host.Outcome.next (opUnmarshal_fails h .lrc s)

/-- Under `preserve` a failed `UNMARSHAL` answers and does nothing else (R160, D8). -/
theorem exec_unmarshalCmd_fails_preserve {bs : List Byte} (h : bs.length ≠ 1) (u : AccUnit) {s : State}
    (hp : s.params.unmarshalFail = .preserve) :
    exec (u.unmarshalCmd bs) s = .next (s.reply .invalidLength 0 []) := by
  rw [exec_unmarshalCmd_fails h, afterFailedUnmarshal_preserve hp]

/-- A failed `UNMARSHAL` leaves everything but its own register, whatever it leaves there (R160, U1). -/
theorem exec_unmarshalCmd_fails_frame {bs : List Byte} (h : bs.length ≠ 1) {u w : AccUnit} (hw : w ≠ u) (s : State) :
    ∃ t, exec (u.unmarshalCmd bs) s = .next t ∧ t.acc w = s.acc w ∧ t.pending = s.pending ∧
      t.params = s.params ∧ t.responses = s.responses ++ [⟨.invalidLength, 0, []⟩] := by
  refine ⟨_, exec_eq _ s, performed_acc_other s _ (by rwa [unit_unmarshalCmd]), performed_pending s _,
    performed_params s _, ?_⟩
  have heq := Host.Outcome.next.inj ((exec_eq _ s).symm.trans (exec_unmarshalCmd_fails h u s))
  rw [heq, State.reply_responses, afterFailedUnmarshal_responses]

/-- Settles O9: one byte, another length under `preserve`, another length under `any`. -/
theorem unmarshalRestoresOneByteOrFails : Obligations.UnmarshalRestoresOneByteOrFails := by
  refine ⟨fun b s => ?_, fun bs s hlen hp => ?_, fun bs s hlen _ => ?_⟩
  · exact ⟨exec_unmarshalCmd_singleton .bcc b s, exec_unmarshalCmd_singleton .lrc b s⟩
  · exact ⟨exec_unmarshalCmd_fails_preserve hlen .bcc hp, exec_unmarshalCmd_fails_preserve hlen .lrc hp⟩
  · exact ⟨exec_unmarshalCmd_fails_frame (u := .bcc) (w := .lrc) hlen (by decide) s,
      exec_unmarshalCmd_fails_frame (u := .lrc) (w := .bcc) hlen (by decide) s⟩

/-! ## Writing the digest (R122, R145) -/

/-- Writing the byte `u.SUM8` answers leaves 0x00 in the register of `u`. -/
theorem exec_sum8Cmd_then_write (u : AccUnit) (s : State) :
    ∃ t t' d, exec u.sum8Cmd s = .next t ∧ t.responses = s.responses ++ [⟨.ok, 0, [d]⟩] ∧
      exec (u.writeCmd [d]) t = .next t' ∧ t'.acc u = 0x00 := by
  refine ⟨_, _, digest u (s.acc u), exec_eq _ s, sum8Cmd_responses s u, exec_eq _ _, ?_⟩
  rw [writeCmd_acc, sum8Cmd_acc, fold_cons, fold_nil, comb_digest]

/-- Settles O20: the digest is the register's inverse, and the digest of 0x00 is 0x00. -/
theorem writingOwnDigestGivesZero : Obligations.WritingOwnDigestGivesZero := by
  refine ⟨exec_sum8Cmd_then_write .bcc, fun s => ?_⟩
  obtain ⟨t, t', d, ht, hd, ht', hzero⟩ := exec_sum8Cmd_then_write .lrc s
  refine ⟨t, t', _, d, ht, hd, ht', hzero, exec_sum8Cmd .lrc t', ?_⟩
  rw [hzero, digest_zero]

/-! ## Any number of writes (R121) -/

/-- The run of one `WRITE` for each piece, each within the bound, folds in all the bytes. -/
theorem runAll_writes_of_pieces (u : AccUnit) (pieces : List (List Byte)) (s : State)
    (hb : ∀ p ∈ pieces, withinMaxLen s.params.maxLen p.length = true) :
    ∃ t, (s.presenting (pieces.map fun p => commandEvent (u.writeCmd p))).runAll = .next t ∧
      t.acc u = fold u (s.acc u) pieces.flatten := by
  have hcmds : ∀ i ∈ pieces.map u.writeCmd, withinMaxLen s.params.maxLen i.payload.length = true :=
    List.forall_mem_map.mpr fun p hp => by rw [payload_writeCmd]; exact hb p hp
  have hrun := runAll_commands (pieces.map u.writeCmd) s hcmds
  rw [List.map_map] at hrun
  obtain ⟨hacc, -⟩ := performedAll_writes u pieces s
  exact ⟨_, hrun, (State.acc_presenting _ u []).trans hacc⟩

/-- Settles O49: the writes leave the fold from 0x00 of all the bytes, and its bits are their parities. -/
theorem bccRegisterIsBitwiseParity : Obligations.BccRegisterIsBitwiseParity := by
  intro pieces s hzero hb
  obtain ⟨t, hrun, hacc⟩ := runAll_writes_of_pieces .bcc pieces s hb
  have hfold : t.accBcc = fold .bcc 0x00 pieces.flatten := by rw [← hzero]; exact hacc
  refine ⟨t, hrun, hfold.trans (fold_bcc_eq_foldl_xor 0x00 _), fun i _ => ?_⟩
  rw [hfold, fold_bcc_zero_getLsbD_iff]

end Sys2Proof.Machine
end

section
/-! The LRC unit (spec/42_lrc.md): its addition and two's complement, the hexadecimal characters of its digest, what
its commands do, and what the register holds after any number of writes. -/

namespace Sys2Proof.Machine

/-! ## The sum (R133, R142) -/

theorem comb_assoc (u : AccUnit) (a b c : Byte) : comb u (comb u a b) c = comb u a (comb u b c) :=
  calc comb u (comb u a b) c
    _ = comb u (comb u b a) c := by rw [comb_comm u a b]
    _ = comb u (comb u b c) a := comb_right_comm u b a c
    _ = comb u a (comb u b c) := comb_comm u _ a

theorem comb_zero (u : AccUnit) (v : Byte) : comb u v 0x00 = v := by
  rw [comb_comm, zero_comb]

theorem comb_lrc_toNat (v b : Byte) : (comb .lrc v b).toNat = (v.toNat + b.toNat) % 256 := by
  rw [comb_lrc, BitVec.toNat_add]

/-- From 0x00 the LRC fold is the sum of the bytes, reduced once (R142). -/
theorem fold_lrc_zero_toNat (bs : List Byte) : (fold .lrc 0x00 bs).toNat = (bs.map BitVec.toNat).sum % 256 := by
  have hstart : (0x00 : Byte).toNat = 0 := rfl
  rw [fold_lrc_toNat, hstart, Nat.zero_add]

/-- The LRC fold as the byte R133 writes out. -/
theorem fold_lrc_eq_ofNat (v : Byte) (bs : List Byte) :
    fold .lrc v bs = BitVec.ofNat 8 ((v.toNat + (bs.map BitVec.toNat).sum) % 256) := by
  rw [← fold_lrc_toNat, BitVec.ofNat_toNat, BitVec.setWidth_eq]

/-- Settles O23: the laws are those of addition, and each gives the fold its own. -/
theorem lrcFoldFollowsAdditionLaws : Obligations.LrcFoldFollowsAdditionLaws := by
  refine ⟨fun a b c => ⟨comb_comm .lrc a b, comb_assoc .lrc a b c, comb_zero .lrc a, comb_digest .lrc a⟩,
    fun v bs cs => fold_perm .lrc v, fun v bs => ?_, fold_lrc_zero_toNat⟩
  rw [fold_eq_comb_fold_zero, comb_lrc_toNat]

/-! ## The two's complement (R131, R143) -/

theorem digest_lrc_toNat (v : Byte) : (digest .lrc v).toNat = (256 - v.toNat) % 256 := by
  rw [digest_lrc, BitVec.toNat_neg]

theorem digest_involutive (u : AccUnit) : Function.Involutive (digest u) := by
  cases u with
  | bcc => exact digest_bcc
  | lrc =>
    intro v
    rw [digest_lrc, digest_lrc, BitVec.neg_neg]

/-- The digest of a combination is the combination of the digests. -/
theorem digest_comb (u : AccUnit) (a b : Byte) : digest u (comb u a b) = comb u (digest u a) (digest u b) := by
  cases u with
  | bcc => rfl
  | lrc => rw [comb_lrc, comb_lrc, digest_lrc, digest_lrc, digest_lrc, BitVec.neg_add, BitVec.sub_eq_add_neg]

/-- A byte is its own two's complement exactly when twice it is a multiple of 256. -/
theorem digest_lrc_eq_self_iff (v : Byte) : digest .lrc v = v ↔ v = 0x00 ∨ v = 0x80 := by
  have hv := v.isLt
  have hzero : (0x00 : Byte).toNat = 0 := rfl
  have hhalf : (0x80 : Byte).toNat = 128 := rfl
  rw [← BitVec.toNat_inj, digest_lrc_toNat, ← BitVec.toNat_inj, ← BitVec.toNat_inj, hzero, hhalf]
  omega

theorem digest_lrc_toNat_of_ne_zero {v : Byte} (h : v ≠ 0x00) : (digest .lrc v).toNat = 256 - v.toNat := by
  have hpos : v.toNat ≠ 0 := fun hzero => h (BitVec.eq_of_toNat_eq hzero)
  rw [digest_lrc_toNat]
  omega

theorem digest_lrc_toNat_eq_not_add_one (v : Byte) : (digest .lrc v).toNat = ((~~~v).toNat + 1) % 256 := by
  rw [digest_lrc, BitVec.neg_eq_not_add, BitVec.toNat_add, BitVec.toNat_ofNat]

/-- Settles O24: the bytes that R143's additive law writes out are combinations of the unit. -/
theorem twosComplementLaws : Obligations.TwosComplementLaws :=
  ⟨digest_involutive .lrc, fun _ _ h => (digest_involutive .lrc).injective h, digest_lrc_eq_self_iff,
    fun _ => digest_lrc_toNat_of_ne_zero, digest_comb .lrc, digest_lrc_toNat_eq_not_add_one⟩

/-! ## The two characters of a digest (R132, R141, R146) -/

theorem highNibble_toNat (b : Byte) : (highNibble b).toNat = b.toNat / 16 := by
  have hsum := toNat_eq_nibbles b
  have hlow := (lowNibble b).isLt
  omega

theorem lowNibble_toNat (b : Byte) : (lowNibble b).toNat = b.toNat % 16 := by
  have hsum := toNat_eq_nibbles b
  have hlow := (lowNibble b).isLt
  omega

/-- R132's table: the codes of `0` to `9` and of `A` to `F`, in the order of their values. -/
def hexDigitCodes : List Byte :=
  [0x30, 0x31, 0x32, 0x33, 0x34, 0x35, 0x36, 0x37, 0x38, 0x39, 0x41, 0x42, 0x43, 0x44, 0x45, 0x46]

theorem hexdigit_eq_getD : ∀ k : Nibble, hexdigit k = hexDigitCodes.getD k.toNat 0 := by decide

/-- The characters of a byte are the table's entries at its quotient and its remainder by 16. -/
theorem hexDigits_eq_getD (d : Byte) :
    hexDigits d = [hexDigitCodes.getD (d.toNat / 16) 0, hexDigitCodes.getD (d.toNat % 16) 0] := by
  rw [hexDigits, hexdigit_eq_getD, hexdigit_eq_getD, highNibble_toNat, lowNibble_toNat]

/-- Equal characters have equal nibbles, and a byte is its nibbles (R146). -/
theorem hexDigits_injective : Function.Injective hexDigits := by
  intro d e h
  obtain ⟨hhigh, hlow⟩ := List.cons_eq_cons.mp h
  apply BitVec.eq_of_toNat_eq
  rw [toNat_eq_nibbles d, toNat_eq_nibbles e, hexdigit_injective _ _ hhigh,
    hexdigit_injective _ _ (List.singleton_inj.mp hlow)]

/-- Settles O25: the nibbles are the byte's own. -/
theorem hexDigitsDetermineTheDigest : Obligations.HexDigitsDetermineTheDigest := fun d =>
  ⟨highNibble d, lowNibble d, rfl, toNat_eq_nibbles d, fun _ h => hexDigits_injective h⟩

/-! ## The commands -/

/-- Settles O3: the fold that `WRITE` leaves is the sum of all the bytes, reduced once. -/
theorem lrcWriteAddsEveryByteModulo256 : Obligations.LrcWriteAddsEveryByteModulo256 := by
  intro bs s
  rw [← fold_lrc_eq_ofNat]
  exact exec_writeCmd .lrc bs s

/-- Settles O6: the three are pure reads; two answer the digest and `MARSHAL` the register. -/
theorem lrcReadsReportDigestMarshalReportsSum : Obligations.LrcReadsReportDigestMarshalReportsSum := by
  intro bs s
  exact ⟨exec_eq_of_isPureRead rfl s, exec_eq_of_isPureRead rfl s, exec_eq_of_isPureRead rfl s⟩

/-- Settles O7: `HEX_SUM` is a pure read, and the digest's characters are those of the table. -/
theorem lrcHexSumAppendsTwoUppercaseDigits : Obligations.LrcHexSumAppendsTwoUppercaseDigits := by
  intro bs s digits d
  have hchars : hexDigits (digest .lrc s.accLrc) = [digits.getD (d / 16) 0, digits.getD (d % 16) 0] := by
    rw [hexDigits_eq_getD, digest_lrc_toNat, hexDigitCodes]
  rw [← hchars]
  exact exec_eq_of_isPureRead rfl s

/-! ## Any number of writes (R144) -/

/-- The one byte that brings a total to 0 mod 256 is the two's complement of the total mod 256. -/
theorem add_toNat_mod_eq_zero_iff {n : Nat} {v : Byte} (hv : v.toNat = n % 256) (e : Byte) :
    (n + e.toNat) % 256 = 0 ↔ e = digest .lrc v := by
  have he := e.isLt
  rw [← BitVec.toNat_inj, digest_lrc_toNat, hv]
  omega

/-- Settles O50: the writes leave the fold from 0x00 of all the bytes, and `SUM8` answers its digest. -/
theorem lrcDigestIsTheByteThatZeroesTheSum : Obligations.LrcDigestIsTheByteThatZeroesTheSum := by
  intro pieces s hzero hb total
  obtain ⟨t, hrun, hacc⟩ := runAll_writes_of_pieces .lrc pieces s hb
  have hfold : t.accLrc = fold .lrc 0x00 pieces.flatten := by rw [← hzero]; exact hacc
  have hsum : t.accLrc.toNat = total % 256 := by rw [hfold, fold_lrc_zero_toNat]
  exact ⟨t, _, digest .lrc t.accLrc, hrun, hsum, exec_sum8Cmd .lrc t, rfl, by rw [digest_lrc_toNat, hsum],
    add_toNat_mod_eq_zero_iff hsum⟩

end Sys2Proof.Machine
end

section
/-! Errors (spec/60_exceptions.md): the two causes and the responses that report them, and that an error leaves nothing
behind. -/

namespace Sys2Proof.Machine

/-! ## The two causes (R161, R162, R166) -/

/-- Settles O27: raising an error is answering it, and an illegal frame does no more (`step_illegal`). -/
theorem stepAnswersIllegalFrames : Obligations.StepAnswersIllegalFrames := by
  intro s f rest r hp hd
  exact step_illegal hp hd

/-- The frame of a command is never illegal (R65). -/
theorem decode_encode_ne_illegal (m : Option Nat) (i : Instr) (r : IllegalReason) :
    decode m (encode i) ≠ .illegal r :=
  fun hd => (decode_illegal_iff m (encode i)).mp ⟨r, hd⟩ ⟨i, rfl⟩

/-- Settles O38: such a frame is that of an `UNMARSHAL`, which takes every payload. -/
theorem unmarshalFramesAreNeverIllegal : Obligations.UnmarshalFramesAreNeverIllegal := by
  intro m bs r
  exact ⟨decode_encode_ne_illegal m (.bccUnmarshal bs) r, decode_encode_ne_illegal m (.lrcUnmarshal bs) r⟩

/-- Settles O12: a command's status is that of its answer (`answer_status`), an illegal frame's that of its error. -/
theorem onlyWrongLengthUnmarshalFails : Obligations.OnlyWrongLengthUnmarshalFails := by
  constructor
  · intro i s
    exact ⟨_, _, exec_eq i s, performed_responses s i, answer_status i _⟩
  · intro s f rest why hp hd
    exact ⟨_, _, step_illegal hp hd, rfl, rfl⟩

/-! ## Nothing is remembered (R164) -/

/-- Raising an error leaves the registers and the parameters (R163). -/
theorem raise_alike (s : State) (st : Status) : (s.raise st).Alike s :=
  ⟨rfl, fun u => State.acc_reply s u st 0 []⟩

/-- Under `preserve` a failing `UNMARSHAL` leaves the registers and the parameters (R160, D8). -/
theorem performed_alike_of_failsUnmarshal {s : State} (hp : s.params.unmarshalFail = .preserve) {i : Instr}
    (hf : i.failsUnmarshal = true) : (s.performed i).Alike s :=
  ⟨performed_params s i, fun u => by rw [performed_acc hp, after_of_failsUnmarshal hf, ite_self]⟩

/-- Under `preserve` a frame answered with an error leaves the registers and the parameters (R160, R161). -/
theorem undergo_alike_of_isFailing {s : State} (hp : s.params.unmarshalFail = .preserve) {e : Event}
    (h : e.isFailing s.params.maxLen = true) : (s.undergo e).Alike s := by
  cases e with
  | hwReset => cases h
  | frame bytes =>
    simp only [Event.isFailing] at h
    simp only [State.undergo]
    cases hd : decode s.params.maxLen bytes with
    | illegal r => exact raise_alike s .illegalCommand
    | refused => simp [hd] at h
    | command i => exact performed_alike_of_failsUnmarshal hp (by simpa [hd] using h)

/-- Settles O55: a failing command leaves the state alike, so leaving all of them out does (`runAll_filter`). -/
theorem failingCommandsLeaveNoTrace : Obligations.FailingCommandsLeaveNoTrace := by
  intro s es bytes hp hb
  have hsilent : ∀ r : State, r.params = s.params → ∀ e, e.isFailing s.params.maxLen = true →
      (r.undergo e).Alike r := fun r hr _ he =>
    undergo_alike_of_isFailing (by rw [hr, hp]) (by rwa [hr])
  exact runAll_filter hp hsilent hb

end Sys2Proof.Machine
end

section
/-! Reset (spec/70_reset_and_hazards.md): the hardware event, the two `RESET` commands beside it, and the core with
nothing presented. -/

namespace Sys2Proof.Machine

/-! ## Hardware reset (R190, R191) -/

/-- After hardware reset a pure read answers what it answers of 0x00, and does nothing else (R94, R191). -/
theorem exec_hardwareReset_of_isPureRead {i : Instr} (h : i.isPureRead = true) (s : State) :
    exec i s.hardwareReset = .next { s.hardwareReset with responses := s.responses ++ [i.answer 0x00] } := by
  rw [exec_eq_of_isPureRead h, State.acc_hardwareReset, State.hardwareReset_responses]

/-- Settles O28: the step is hardware reset, after it each command listed is a pure read, and their answers of 0x00
are computed. -/
theorem hardwareResetClearsBothRegisters : Obligations.HardwareResetClearsBothRegisters := by
  intro s rest hp
  have hread (i : Instr) (h : i.isPureRead = true) := exec_hardwareReset_of_isPureRead h (s.presenting rest)
  exact ⟨_, step_hwReset hp, rfl, hread .bccSum8 rfl, hread .lrcSum8 rfl, hread .bccMarshal rfl, hread .lrcMarshal rfl,
    hread (.lrcHexSum []) rfl, hread .bccBlockSize rfl, hread .bccDigestSize rfl, hread .lrcBlockSize rfl,
    hread .lrcDigestSize rfl⟩

/-! ## The `RESET` commands beside it (R192) -/

/-- Settles O29: both leave 0x00 in the unit's register; the other is in `RESET`'s frame and not in hardware reset's. -/
theorem resetCommandsComparedWithHardwareReset : Obligations.ResetCommandsComparedWithHardwareReset := by
  intro u w s hw
  refine ⟨_, _, exec_resetCmd u s, step_hwReset (State.presenting_pending s [.hwReset]), ?_, ?_, ?_, ?_, ?_⟩
  · rw [State.acc_reply, State.acc_setAcc_same, State.acc_hardwareReset]
  · rw [State.acc_reply, State.acc_setAcc_other s 0x00 hw]
  · exact State.acc_hardwareReset _ w
  · rw [State.reply_responses, State.setAcc_responses]
  · rfl

/-! ## Nothing presented (R205) -/

/-- Settles O32: with nothing pending the fetch is idle (`step_nil`). -/
theorem stepWithNothingPendingChangesNothing : Obligations.StepWithNothingPendingChangesNothing :=
  fun _ hp => step_nil hp

end Sys2Proof.Machine
end

section
/-! The free byte of a failed `UNMARSHAL` (spec/93_implementation_defined.md U1; the model's choice, log 5). -/

namespace Sys2Proof.Machine

/-- Under `any` a failed `UNMARSHAL` takes this draw's free byte as its register, counts the draw and answers
`InvalidLength` (R160, U1). -/
theorem exec_unmarshalCmd_fails_any {bs : List Byte} (h : bs.length ≠ 1) (u : AccUnit) {s : State}
    (ha : s.params.unmarshalFail = .any) :
    exec (u.unmarshalCmd bs) s = .next
      ({ s.setAcc u (Config.freeByte s.draws) with draws := s.draws + 1 }.reply .invalidLength 0 []) := by
  rw [exec_unmarshalCmd_fails h, afterFailedUnmarshal_any ha]

/-- Settles O10, by what a failed `UNMARSHAL` does under `any` over either unit. -/
theorem failedUnmarshalDrawsOneFreeByte : Obligations.FailedUnmarshalDrawsOneFreeByte := by
  intro bs s hlen ha
  exact ⟨exec_unmarshalCmd_fails_any hlen .bcc ha, exec_unmarshalCmd_fails_any hlen .lrc ha⟩

end Sys2Proof.Machine
end
